-- ==== Sys2Proof/Word.lean ====
section
/-!
DEFINITION. The word types of the CipherLab AES-128 encryption core: a byte, the three bus widths of
spec/30_encoding.md R60 (16-bit command, 128-bit operand and result, 32-bit STATUS), a 16-byte value, and the
expanded key as the 11 round keys it is sliced into.
-/

namespace Sys2Proof

/-- A byte: 8 bits, unsigned (00_scope.md R7). -/
abbrev Byte := BitVec 8

/-- A command word on the `cmd` port (30_encoding.md R60, R61). -/
abbrev CmdWord := BitVec 16

/-- An operand or result word on the `din` or `dout` port (20_memory.md R40, R44). -/
abbrev BusWord := BitVec 128

/-- The STATUS word (10_state.md R28). -/
abbrev StatusWord := BitVec 32

/-- A 16-byte value: STATE, one round key, or one block. Byte `i` is row `i % 4`, column `i / 4` of the 4x4
matrix (00_scope.md R8). -/
abbrev Block := Vector Byte 16

/-- The expanded key, by its slicing into round keys 0 to 10 (10_state.md R22, R23). Its 176-byte view is
`Machine.expandedByte`. -/
abbrev ExpandedKey := Fin 11 → Block

end Sys2Proof
end

