-- ==== Sys2Proof/Syntax.lean ====
section
/-!
DEFINITION. The commands of the core, one constructor per row of spec/opcode_table.json. A command plays the part of an
instruction (00_scope.md "How to read this spec"). Operand fields are kept as the raw bits of the command word, so that
an out-of-range operand is a term that `WellFormed.lean` refuses and the machine answers with BAD_FIELD.
The 128-bit operand `din` travels beside the command word (30_encoding.md R61); it is on the `din` port of the state.
-/

namespace Sys2Proof

/-- One constructor per row of the opcode table (30_encoding.md R64). -/
inductive Instr where
  /-- NOP (43_transfer.md R120). -/
  | nop
  /-- LDST: STATE from din (R121). -/
  | ldst
  /-- RDST: STATE to dout (R122). -/
  | rdst
  /-- LDRK k: round key `k` from din (R123). -/
  | ldrk (k : BitVec 4)
  /-- ARK k: AddRoundKey with round key `k` (41_transforms.md R92). -/
  | ark (k : BitVec 4)
  /-- SUB: SubBytes (R94). -/
  | sub
  /-- SHR: ShiftRows (R97). -/
  | shr
  /-- MIX: MixColumns (R101). -/
  | mix
  /-- RND k: standard round with round key `k` (42_rounds.md R111). -/
  | rnd (k : BitVec 4)
  /-- FRND k: final round with round key `k` (R113). -/
  | frnd (k : BitVec 4)
  /-- ENCB n: encrypt one block of `n` bytes, padded with zeros (44_block_driver.md R142). -/
  | encb (n : BitVec 5)
  /-- Reserved OP 0xB; `rest` is bits 15:4 of the word, which may hold anything (30_encoding.md R66). -/
  | reservedB (rest : BitVec 12)
  /-- Reserved OP 0xC. -/
  | reservedC (rest : BitVec 12)
  /-- Reserved OP 0xD. -/
  | reservedD (rest : BitVec 12)
  /-- Reserved OP 0xE. -/
  | reservedE (rest : BitVec 12)
  /-- Reserved OP 0xF. -/
  | reservedF (rest : BitVec 12)
deriving DecidableEq, Repr

end Sys2Proof
end

