-- ==== Sys2Proof/WellFormed.lean ====
section
/-!
DEFINITION. When a command's operands are ones the encoding admits: a round-key index in 0..10 (30_encoding.md R62) and a
byte count in 1..16 (R63). A reserved opcode admits any rest (R66).
-/

namespace Sys2Proof

/-- R62: the round-key index of LDRK, ARK, RND and FRND is in 0..10. -/
def Instr.keyIndexOk (k : BitVec 4) : Bool := decide (k.toNat ≤ 10)

/-- R63: the byte count of ENCB is in 1..16. -/
def Instr.byteCountOk (n : BitVec 5) : Bool := decide (1 ≤ n.toNat ∧ n.toNat ≤ 16)

/-- The operands are ones the encoding admits. -/
def Instr.wellFormed : Instr → Bool
  | .nop => true
  | .ldst => true
  | .rdst => true
  | .ldrk k => Instr.keyIndexOk k
  | .ark k => Instr.keyIndexOk k
  | .sub => true
  | .shr => true
  | .mix => true
  | .rnd k => Instr.keyIndexOk k
  | .frnd k => Instr.keyIndexOk k
  | .encb n => Instr.byteCountOk n
  | .reservedB _ => true
  | .reservedC _ => true
  | .reservedD _ => true
  | .reservedE _ => true
  | .reservedF _ => true

end Sys2Proof
end

