-- ==== Sys2Proof/Decode.lean ====
section
/-!
DEFINITION. The decoder of spec/30_encoding.md R61 to R67, total on all 65536 command words, and after it the encoder,
written from the same format. Every word decodes to one command or to one named reason for BAD_FIELD.
-/

namespace Sys2Proof

/-- Why a word with a legal opcode is no command. Each constructor is one `raise Error(BAD_FIELD)` line of R67. -/
inductive DecodeError where
  /-- RSV is not 0. -/
  | rsvNotZero
  /-- The command uses RSEL and it is above 10. -/
  | rselAboveTen
  /-- The command does not use RSEL and it is not 0. -/
  | rselNotZero
  /-- The command uses NB and it is not in 1..16. -/
  | nbOutOfRange
  /-- The command does not use NB and it is not 0. -/
  | nbNotZero
deriving DecidableEq, Repr

/-! ### The fields of a command word (R61) -/

/-- OP, bits 3:0. -/
def opField (w : CmdWord) : BitVec 4 := w.extractLsb' 0 4

/-- RSEL, bits 7:4. -/
def rselField (w : CmdWord) : BitVec 4 := w.extractLsb' 4 4

/-- NB, bits 12:8. -/
def nbField (w : CmdWord) : BitVec 5 := w.extractLsb' 8 5

/-- RSV, bits 15:13. -/
def rsvField (w : CmdWord) : BitVec 3 := w.extractLsb' 13 3

/-- Bits 15:4, the part of a reserved word that is not its opcode. -/
def restField (w : CmdWord) : BitVec 12 := w.extractLsb' 4 12

/-! ### The three operand shapes (R67) -/

/-- A command with neither RSEL nor NB. -/
def decodePlain (w : CmdWord) (i : Instr) : Except DecodeError Instr :=
  if rsvField w ≠ 0 then .error .rsvNotZero
  else if rselField w ≠ 0 then .error .rselNotZero
  else if nbField w ≠ 0 then .error .nbNotZero
  else .ok i

/-- A command with a round-key index in RSEL (R62). -/
def decodeKeyed (w : CmdWord) (mk : BitVec 4 → Instr) : Except DecodeError Instr :=
  if rsvField w ≠ 0 then .error .rsvNotZero
  else if 10 < (rselField w).toNat then .error .rselAboveTen
  else if nbField w ≠ 0 then .error .nbNotZero
  else .ok (mk (rselField w))

/-- A command with a byte count in NB (R63). -/
def decodeCounted (w : CmdWord) (mk : BitVec 5 → Instr) : Except DecodeError Instr :=
  if rsvField w ≠ 0 then .error .rsvNotZero
  else if rselField w ≠ 0 then .error .rselNotZero
  else if (nbField w).toNat < 1 ∨ 16 < (nbField w).toNat then .error .nbOutOfRange
  else .ok (mk (nbField w))

/-- The decoder (R64, R66, R67). A reserved opcode is looked at first: its other fields do not matter. -/
def decode (w : CmdWord) : Except DecodeError Instr :=
  match (opField w).toNat with
  | 0x0 => decodePlain w .nop
  | 0x1 => decodePlain w .ldst
  | 0x2 => decodePlain w .rdst
  | 0x3 => decodeKeyed w .ldrk
  | 0x4 => decodeKeyed w .ark
  | 0x5 => decodePlain w .sub
  | 0x6 => decodePlain w .shr
  | 0x7 => decodePlain w .mix
  | 0x8 => decodeKeyed w .rnd
  | 0x9 => decodeKeyed w .frnd
  | 0xA => decodeCounted w .encb
  | 0xB => .ok (.reservedB (restField w))
  | 0xC => .ok (.reservedC (restField w))
  | 0xD => .ok (.reservedD (restField w))
  | 0xE => .ok (.reservedE (restField w))
  | _   => .ok (.reservedF (restField w))   -- only 0xF is left: OP has four bits

/-! ### The encoder -/

/-- The opcode of a command (R64). -/
def opcode : Instr → BitVec 4
  | .nop => 0x0
  | .ldst => 0x1
  | .rdst => 0x2
  | .ldrk _ => 0x3
  | .ark _ => 0x4
  | .sub => 0x5
  | .shr => 0x6
  | .mix => 0x7
  | .rnd _ => 0x8
  | .frnd _ => 0x9
  | .encb _ => 0xA
  | .reservedB _ => 0xB
  | .reservedC _ => 0xC
  | .reservedD _ => 0xD
  | .reservedE _ => 0xE
  | .reservedF _ => 0xF

/-- R64: the word of a legal command is `{3'b000, NB, RSEL, OP}`. -/
def packWord (nb : BitVec 5) (rsel : BitVec 4) (op : BitVec 4) : CmdWord := 0#3 ++ nb ++ rsel ++ op

/-- A word with a reserved opcode and any rest (R66). -/
def packReserved (rest : BitVec 12) (op : BitVec 4) : CmdWord := rest ++ op

/-- The command word of a command (R61, R64). -/
def encode : Instr → CmdWord
  | .nop => packWord 0 0 0x0
  | .ldst => packWord 0 0 0x1
  | .rdst => packWord 0 0 0x2
  | .ldrk k => packWord 0 k 0x3
  | .ark k => packWord 0 k 0x4
  | .sub => packWord 0 0 0x5
  | .shr => packWord 0 0 0x6
  | .mix => packWord 0 0 0x7
  | .rnd k => packWord 0 k 0x8
  | .frnd k => packWord 0 k 0x9
  | .encb n => packWord n 0 0xA
  | .reservedB rest => packReserved rest 0xB
  | .reservedC rest => packReserved rest 0xC
  | .reservedD rest => packReserved rest 0xD
  | .reservedE rest => packReserved rest 0xE
  | .reservedF rest => packReserved rest 0xF

/-! ### The opcode table as data -/

/-- A row of spec/opcode_table.json: a word belongs to the row when its bits under `mask` are `pattern`. -/
structure OpcodeRow where
  mnemonic : String
  pattern  : CmdWord
  mask     : CmdWord
deriving DecidableEq, Repr

/-- The word fits the row's bits. -/
def rowFits (r : OpcodeRow) (w : CmdWord) : Bool := w &&& r.mask == r.pattern

/-- The rows, in the table's order. -/
def opcodeTable : List OpcodeRow :=
  [ ⟨"NOP", 0x0000, 0xFFFF⟩, ⟨"LDST", 0x0001, 0xFFFF⟩, ⟨"RDST", 0x0002, 0xFFFF⟩, ⟨"LDRK", 0x0003, 0xFF0F⟩,
    ⟨"ARK", 0x0004, 0xFF0F⟩, ⟨"SUB", 0x0005, 0xFFFF⟩, ⟨"SHR", 0x0006, 0xFFFF⟩, ⟨"MIX", 0x0007, 0xFFFF⟩,
    ⟨"RND", 0x0008, 0xFF0F⟩, ⟨"FRND", 0x0009, 0xFF0F⟩, ⟨"ENCB", 0x000A, 0xE0FF⟩,
    ⟨"reserved_OP_0xB", 0x000B, 0x000F⟩, ⟨"reserved_OP_0xC", 0x000C, 0x000F⟩, ⟨"reserved_OP_0xD", 0x000D, 0x000F⟩,
    ⟨"reserved_OP_0xE", 0x000E, 0x000F⟩, ⟨"reserved_OP_0xF", 0x000F, 0x000F⟩ ]

/-- The row a command stands for. -/
def tableRow : Instr → OpcodeRow
  | .nop => ⟨"NOP", 0x0000, 0xFFFF⟩
  | .ldst => ⟨"LDST", 0x0001, 0xFFFF⟩
  | .rdst => ⟨"RDST", 0x0002, 0xFFFF⟩
  | .ldrk _ => ⟨"LDRK", 0x0003, 0xFF0F⟩
  | .ark _ => ⟨"ARK", 0x0004, 0xFF0F⟩
  | .sub => ⟨"SUB", 0x0005, 0xFFFF⟩
  | .shr => ⟨"SHR", 0x0006, 0xFFFF⟩
  | .mix => ⟨"MIX", 0x0007, 0xFFFF⟩
  | .rnd _ => ⟨"RND", 0x0008, 0xFF0F⟩
  | .frnd _ => ⟨"FRND", 0x0009, 0xFF0F⟩
  | .encb _ => ⟨"ENCB", 0x000A, 0xE0FF⟩
  | .reservedB _ => ⟨"reserved_OP_0xB", 0x000B, 0x000F⟩
  | .reservedC _ => ⟨"reserved_OP_0xC", 0x000C, 0x000F⟩
  | .reservedD _ => ⟨"reserved_OP_0xD", 0x000D, 0x000F⟩
  | .reservedE _ => ⟨"reserved_OP_0xE", 0x000E, 0x000F⟩
  | .reservedF _ => ⟨"reserved_OP_0xF", 0x000F, 0x000F⟩

/-! ### The host's entry -/

/-- The command word that the low `nbits` bits of `w` are, every higher bit 0. A command is one 16-bit word (R68), so bit
`i` of the table's numbering is bit `i` of `cmd`. -/
def tableWord (nbits w : Nat) : CmdWord := BitVec.ofNat 16 (w % 2 ^ nbits)

/-- What the decoder reads from a row's word. -/
def decodeTableWord (nbits w : Nat) : Option Instr :=
  match decode (tableWord nbits w) with
  | .ok i => some i
  | .error _ => none

end Sys2Proof
end

