-- ==== Sys2Proof/Config.lean ====
section
/-!
DEFINITION. What the spec leaves to an implementation (00_scope.md R6, 92_eei_decisions.md "Open parameters"), the
external key schedule (43_transfer.md R124), and the free values. None has a body, so a claim about the model holds
whatever they are.
-/

namespace Sys2Proof

/-- How the reset input is sampled (00_scope.md R6, 70_reset_and_hazards.md R210). -/
inductive ResetKind where
  | synchronous
  | asynchronous
deriving DecidableEq, Repr, Inhabited

/-- TRACE_EN: whether the trace port exists (00_scope.md R6, 60_exceptions.md R196). OPEN, D18. -/
opaque Config.traceEn : Bool

/-- RESET_KIND. OPEN, D10. No rule depends on it, and no definition of this model reads it. -/
opaque Config.resetKind : ResetKind

/-- One less than LAT_CMD(op), for the opcode `op`. -/
opaque Config.extraLatency : BitVec 4 → Nat

/-- LAT_CMD(op), at least 1 (00_scope.md R6, 70_reset_and_hazards.md R230). OPEN, D23. The model has no time: no rule
depends on it, and no other definition of this model reads it. -/
def Config.latCmd (op : BitVec 4) : Nat := Config.extraLatency op + 1

/-- One less than N_INST. -/
opaque Config.extraInstances : Nat

/-- N_INST, at least 1: how many core instances the system has (00_scope.md R6, 60_exceptions.md R197). OPEN, D19. -/
def Config.nInst : Nat := Config.extraInstances + 1

/-- FREE VALUE (60_exceptions.md R183, 93_implementation_defined.md U3): the result word of a response whose dout is
UNSPEC. The argument is `State.draws`. DESIGN CHOICE (log entry 2): the word of a draw is a function of its number alone, so two
runs or two cores at the same number see the same word, whatever their STATE, RK or din. The spec's draws are under no law,
and no claim about the hardware may rest on two of them being equal. -/
opaque Config.freeDout : Nat → BusWord

/-- FREE VALUE (70_reset_and_hazards.md R212, U12): how many trace events of an abandoned command had already been
emitted. The argument is `State.draws`, with the same DESIGN CHOICE as `freeDout` (log entries 2 and 7). -/
opaque Config.freeEmitted : Nat → Nat

/-- The key schedule, an external collaborator (43_transfer.md R124): a 16-byte secret key in, the 11 round keys out.
Its algorithm is out of scope (00_scope.md R4), so it is left uninterpreted. -/
opaque Config.keySchedule : Block → ExpandedKey

end Sys2Proof
end

