-- ==== Sys2Proof/Machine/State.lean ====
section
/-!
DEFINITION. Everything the spec gives the core, as plain data: the registers of spec/10_state.md, the ports of 30_encoding.md
R60 at transaction level (00_scope.md R10), and the record of what the core has sent (60_exceptions.md R187, R196). The core has no
memory, no program counter and no modes (10_state.md R20, R26, R27, 60_exceptions.md R190), so no field holds one.
-/

namespace Sys2Proof.Machine

/-- Response codes (60_exceptions.md R180). Codes 5 to 15 are never produced and are left out (93_implementation_defined.md
U6). -/
inductive Rsp where
  /-- Code 0. -/
  | ok
  /-- Code 1: a reserved opcode. -/
  | illegalOp
  /-- Code 2: RSV, RSEL or NB outside what the opcode allows. -/
  | badField
  /-- Code 3: a round key the command needs is not loaded. -/
  | keyUninit
  /-- Code 4: STATE is not loaded. -/
  | stateUninit
deriving DecidableEq, Repr

/-- The four elementary transforms, the phases of the sequencer (10_state.md R30). -/
inductive Phase where
  | ark
  | sub
  | shr
  | mix
deriving DecidableEq, Repr

/-- Where a trace event comes from (60_exceptions.md R195). -/
inductive TraceSource where
  | inBlock
  | standalone
  | inRound
deriving DecidableEq, Repr

/-- The sequencer's hidden state while ENCB runs (R30): the round counter `rc` and the phase `ph`. -/
structure SeqPos where
  rc : Fin 11
  ph : Phase
deriving DecidableEq, Repr

/-- What the host does to the core, in the order it does it (60_exceptions.md R198). -/
inductive HostEvent where
  /-- Presents a command word with its operand and holds both until accepted (30_encoding.md R60). -/
  | command (cmd : CmdWord) (din : BusWord)
  /-- Presents a command and asserts `rst` while it is outstanding (70_reset_and_hazards.md R212). -/
  | abandoned (cmd : CmdWord) (din : BusWord)
  /-- Drives `rst` to 1 (R210). -/
  | assertReset
  /-- Drives `rst` to 0: reset has finished (R211). -/
  | releaseReset
deriving DecidableEq, Repr

/-- One response (30_encoding.md R60): the code on `rsp` and the word on `dout`. -/
structure Response where
  rsp  : Rsp
  dout : BusWord
deriving DecidableEq, Repr

/-- One event on the trace port (60_exceptions.md R196). -/
structure TraceEvent where
  tag  : BitVec 8
  data : BusWord
deriving DecidableEq, Repr

/-- The core, the inputs the host still holds for it, and the record of its outputs. -/
structure State where
  /-- STATE and its valid bit STV. R33: held as an optional value, none when nothing was written since reset, so STV
  is whether there is a value (R20, R24). -/
  stateReg  : Option Block
  /-- RK[0..10] and the valid bits KV[0..10], in the same way (R22, R24, R33). -/
  rk        : Vector (Option Block) 11
  /-- ERR, the first error since reset (R25). -/
  err       : Rsp
  /-- LASTRSP, the newest response code (R25). -/
  lastRsp   : Rsp
  /-- `rc` and `ph` while ENCB runs, none between commands (R30, R33). -/
  seq       : Option SeqPos
  /-- The level of the `rst` input (R60, R210). READY is 1 exactly when it is 0. -/
  rst       : Bool
  /-- What the host still has to do, oldest first (R198). A command in it is held, not lost, until accepted (R221). -/
  inputs    : List HostEvent
  /-- The `din` input port, which carries the operand of the command being run (R60, R61). -/
  din       : BusWord
  /-- The responses sent, oldest first (R187, R214). -/
  responses : List Response
  /-- The trace events sent, oldest first (R196). -/
  trace     : List TraceEvent
  /-- The MODEL's own field: how many free values have been drawn (R183, R212). -/
  draws     : Nat
deriving DecidableEq, Repr

/-- The core right after reset, with nothing asked of it and nothing sent (R33, R210, R211). -/
def State.reset : State where
  stateReg  := none
  rk        := Vector.replicate 11 none
  err       := .ok
  lastRsp   := .ok
  seq       := none
  rst       := false
  inputs    := []
  din       := 0
  responses := []
  trace     := []
  draws     := 0

/-- The core has no fault that stops it: an error is a response, and the next command runs (R184, R186). So there is no
reason, and a machine of this type cannot answer with a fault. -/
inductive Fault where
deriving DecidableEq, Repr

/-- Reasons to refuse. -/
inductive Refusal where
  /-- Raised by `exec` alone, for a command that has no meaning yet. No arm does so. Safe. -/
  | notModelled (mnemonic : String)
deriving DecidableEq, Repr

end Sys2Proof.Machine
end

