-- ==== Sys2Proof/Machine/Flags.lean ====
section
/-!
DEFINITION. The valid bits, the error latch and the STATUS word (spec/10_state.md R24, R25, R28, R29), and the tags of trace events
(60_exceptions.md R195).
-/

namespace Sys2Proof.Machine

/-- The 4-bit code of a response (R180). -/
def rspCode : Rsp → BitVec 4
  | .ok => 0
  | .illegalOp => 1
  | .badField => 2
  | .keyUninit => 3
  | .stateUninit => 4

/-- STV: STATE holds a value written since reset (R24). -/
def stv (s : State) : Bool := s.stateReg.isSome

/-- KV[k]: round key `k` has been written since reset (R24). -/
def kv (s : State) (k : Fin 11) : Bool := s.rk[k].isSome

/-- KALL: the AND of KV[0..10], 1 when all 11 round keys are loaded (R28). -/
def kall (s : State) : Bool := decide (∀ k : Fin 11, kv s k = true)

/-- READY: between commands it is 1 except during reset (R29, R210). -/
def ready (s : State) : Bool := !s.rst

/-- KV[10:0] as bits, KV[k] at bit k (R28). -/
def kvBits (s : State) : BitVec 11 :=
  BitVec.ofBool (kv s 10) ++ BitVec.ofBool (kv s 9) ++ BitVec.ofBool (kv s 8) ++ BitVec.ofBool (kv s 7) ++
  BitVec.ofBool (kv s 6) ++ BitVec.ofBool (kv s 5) ++ BitVec.ofBool (kv s 4) ++ BitVec.ofBool (kv s 3) ++
  BitVec.ofBool (kv s 2) ++ BitVec.ofBool (kv s 1) ++ BitVec.ofBool (kv s 0)

/-- STATUS (R28): `{8'b0, LASTRSP, ERR, 2'b0, KALL, KV[10], ..., KV[0], STV, READY}`. -/
def status (s : State) : StatusWord :=
  0#8 ++ rspCode s.lastRsp ++ rspCode s.err ++ 0#2 ++ BitVec.ofBool (kall s) ++ kvBits s ++ BitVec.ofBool (stv s) ++
  BitVec.ofBool (ready s)

/-- ERR after a command that ended in error `e`: the first error is kept (R25, R184). -/
def latchError (old e : Rsp) : Rsp := if old = .ok then e else old

/-- `src` of a trace tag (R195). -/
def sourceCode : TraceSource → BitVec 2
  | .inBlock => 0
  | .standalone => 1
  | .inRound => 2

/-- `ph` of a trace tag (R195). -/
def phaseCode : Phase → BitVec 2
  | .ark => 0
  | .sub => 1
  | .shr => 2
  | .mix => 3

/-- `TAG(r, src, ph) = {r[3:0], src[1:0], ph[1:0]}` (R195). -/
def traceTag (r : BitVec 4) (src : TraceSource) (ph : Phase) : BitVec 8 := r ++ sourceCode src ++ phaseCode ph

end Sys2Proof.Machine
end

