-- ==== Sys2Proof/Machine/Tables.lean ====
section
/-!
DEFINITION. Bytes and bus words (spec/20_memory.md R40) and the read-only tables S-box, MUL2 and MUL3
(spec/40_lookup_tables.md R80 to R85). No command writes a table and reset does not change it (R31, R85), so the tables are
constants and not state.
-/

namespace Sys2Proof.Machine

/-! ### Byte order of a bus word (R40) -/

/-- Byte `i` of a bus word: bits `127-8i` down to `120-8i` (R40). Byte 0 is the most significant. -/
def byteOf (w : BusWord) (i : Nat) : Byte := w.extractLsb' (120 - 8 * i) 8

/-- `bytes(w)` of R40. -/
def bytes (w : BusWord) : Block := Vector.ofFn fun i : Fin 16 => byteOf w i

/-- `word(s)` of R40: `{s[0], s[1], ..., s[15]}`, byte 0 in bits 127:120. -/
def word (s : Block) : BusWord :=
  s[0] ++ s[1] ++ s[2] ++ s[3] ++ s[4] ++ s[5] ++ s[6] ++ s[7] ++
  s[8] ++ s[9] ++ s[10] ++ s[11] ++ s[12] ++ s[13] ++ s[14] ++ s[15]

/-! ### The tables, one bus word a row: the entry in column `c` is byte `c` of its row -/

/-- The rows of the S-box (R80). -/
def sboxRows : List BusWord :=
  [ 0x637c777bf26b6fc53001672bfed7ab76#128,
    0xca82c97dfa5947f0add4a2af9ca472c0#128,
    0xb7fd9326363ff7cc34a5e5f171d83115#128,
    0x04c723c31896059a071280e2eb27b275#128 ] ++
  [ 0x09832c1a1b6e5aa0523bd6b329e32f84#128,
    0x53d100ed20fcb15b6acbbe394a4c58cf#128,
    0xd0efaafb434d338545f9027f503c9fa8#128,
    0x51a3408f929d38f5bcb6da2110fff3d2#128 ] ++
  [ 0xcd0c13ec5f974417c4a77e3d645d1973#128,
    0x60814fdc222a908846eeb814de5e0bdb#128,
    0xe0323a0a4906245cc2d3ac629195e479#128,
    0xe7c8376d8dd54ea96c56f4ea657aae08#128 ] ++
  [ 0xba78252e1ca6b4c6e8dd741f4bbd8b8a#128,
    0x703eb5664803f60e613557b986c11d9e#128,
    0xe1f8981169d98e949b1e87e9ce5528df#128,
    0x8ca1890dbfe6426841992d0fb054bb16#128 ]

/-- The rows of MUL2 as R82 prints them in full. -/
def mul2Rows : List BusWord :=
  [ 0x00020406080a0c0e10121416181a1c1e#128,
    0x20222426282a2c2e30323436383a3c3e#128,
    0x40424446484a4c4e50525456585a5c5e#128,
    0x60626466686a6c6e70727476787a7c7e#128 ] ++
  [ 0x80828486888a8c8e90929496989a9c9e#128,
    0xa0a2a4a6a8aaacaeb0b2b4b6b8babcbe#128,
    0xc0c2c4c6c8caccced0d2d4d6d8dadcde#128,
    0xe0e2e4e6e8eaeceef0f2f4f6f8fafcfe#128 ] ++
  [ 0x1b191f1d131117150b090f0d03010705#128,
    0x3b393f3d333137352b292f2d23212725#128,
    0x5b595f5d535157554b494f4d43414745#128,
    0x7b797f7d737177756b696f6d63616765#128 ] ++
  [ 0x9b999f9d939197958b898f8d83818785#128,
    0xbbb9bfbdb3b1b7b5aba9afada3a1a7a5#128,
    0xdbd9dfddd3d1d7d5cbc9cfcdc3c1c7c5#128,
    0xfbf9fffdf3f1f7f5ebe9efede3e1e7e5#128 ]

/-- The rows of MUL3 as R83 prints them in full. -/
def mul3Rows : List BusWord :=
  [ 0x000306050c0f0a09181b1e1d14171211#128,
    0x303336353c3f3a39282b2e2d24272221#128,
    0x606366656c6f6a69787b7e7d74777271#128,
    0x505356555c5f5a59484b4e4d44474241#128 ] ++
  [ 0xc0c3c6c5cccfcac9d8dbdeddd4d7d2d1#128,
    0xf0f3f6f5fcfffaf9e8ebeeede4e7e2e1#128,
    0xa0a3a6a5acafaaa9b8bbbebdb4b7b2b1#128,
    0x909396959c9f9a99888b8e8d84878281#128 ] ++
  [ 0x9b989d9e97949192838085868f8c898a#128,
    0xaba8adaea7a4a1a2b3b0b5b6bfbcb9ba#128,
    0xfbf8fdfef7f4f1f2e3e0e5e6efece9ea#128,
    0xcbc8cdcec7c4c1c2d3d0d5d6dfdcd9da#128 ] ++
  [ 0x5b585d5e57545152434045464f4c494a#128,
    0x6b686d6e67646162737075767f7c797a#128,
    0x3b383d3e37343132232025262f2c292a#128,
    0x0b080d0e07040102131015161f1c191a#128 ]

/-- A table read: the entry in row `b[7:4]` and column `b[3:0]` (R80). -/
def tableRead (rows : List BusWord) (b : Byte) : Byte :=
  byteOf (rows.getD (b.extractLsb' 4 4).toNat 0) (b.extractLsb' 0 4).toNat

/-- SBOX (R80). -/
def sbox (b : Byte) : Byte := tableRead sboxRows b

/-- MUL2 (R82): `b` times x in GF(2^8) modulo 0x11B. `Laws.mul2_eq_table` says the printed table agrees. -/
def mul2 (b : Byte) : Byte := (b <<< 1) ^^^ (if b.msb then 0x1B#8 else 0x00#8)

/-- MUL3 (R83): `b` times x + 1. `Laws.mul3_eq_table` says the printed table agrees. -/
def mul3 (b : Byte) : Byte := mul2 b ^^^ b

/-! ### The S-box as algebra (R81), used in claims only -/

/-- Times x in GF(2^8) modulo 0x11B, a byte read as a number. -/
def gfDouble (a : Nat) : Nat := if a < 128 then 2 * a else (2 * a) ^^^ 0x11B

/-- Multiplication in GF(2^8) modulo 0x11B, on the low `n` bits of `b`: add `a` for bit 0, then go on with `a` doubled and
`b` halved. -/
def gfMulBits : Nat → Nat → Nat → Nat
  | 0, _, _ => 0
  | n + 1, a, b => (if b % 2 = 1 then a else 0) ^^^ gfMulBits n (gfDouble a) (b / 2)

/-- Multiplication in GF(2^8) modulo 0x11B (R81). -/
def gfMul (a b : Byte) : Byte := BitVec.ofNat 8 (gfMulBits 8 a.toNat b.toNat)

/-- INV of R81, as the 254th power: `b^2 * b^4 * ... * b^128`. That it is the inverse is a claim, not the definition. -/
def gfInv (b : Byte) : Byte :=
  let b2 := gfMul b b
  let b4 := gfMul b2 b2
  let b8 := gfMul b4 b4
  let b16 := gfMul b8 b8
  let b32 := gfMul b16 b16
  let b64 := gfMul b32 b32
  let b128 := gfMul b64 b64
  gfMul b2 (gfMul b4 (gfMul b8 (gfMul b16 (gfMul b32 (gfMul b64 b128)))))

/-- `rotl8` of R81. -/
def rotl8 (y : Byte) (n : Nat) : Byte := (y <<< n) ||| (y >>> (8 - n))

/-- The affine map A of R81. -/
def sboxAffine (y : Byte) : Byte := y ^^^ rotl8 y 1 ^^^ rotl8 y 2 ^^^ rotl8 y 3 ^^^ rotl8 y 4 ^^^ 0x63

end Sys2Proof.Machine
end

