-- ==== Sys2Proof/Machine/Transforms.lean ====
section
/-!
DEFINITION. The pure functions of spec/41_transforms.md, 42_rounds.md and 44_block_driver.md on 16-byte values (00_scope.md
R11). Each builds its whole result from its whole input, so no output byte is computed from one already overwritten (70_reset_and_hazards.md
R220).
-/

namespace Sys2Proof.Machine

/-- AddRoundKey (R90). -/
def arkf (s key : Block) : Block := Vector.ofFn fun i : Fin 16 => s[i] ^^^ key[i]

/-- SubBytes (R93). -/
def subf (s : Block) : Block := Vector.ofFn fun i : Fin 16 => sbox s[i]

/-- ShiftRows (R95): byte `4c + r` of the result is byte `4((c + r) mod 4) + r` of the input. -/
def shrf (s : Block) : Block :=
  Vector.ofFn fun i : Fin 16 => s[4 * ((i.val / 4 + i.val % 4) % 4) + i.val % 4]

/-- MixColumns of one column (R98): row `r` of the result, for rows 0 to 3. -/
def mixColumn (a0 a1 a2 a3 : Byte) (r : Nat) : Byte :=
  match r with
  | 0 => mul2 a0 ^^^ mul3 a1 ^^^ a2 ^^^ a3
  | 1 => a0 ^^^ mul2 a1 ^^^ mul3 a2 ^^^ a3
  | 2 => a0 ^^^ a1 ^^^ mul2 a2 ^^^ mul3 a3
  | _ => mul3 a0 ^^^ a1 ^^^ a2 ^^^ mul2 a3

/-- MixColumns (R99). -/
def mixf (s : Block) : Block :=
  Vector.ofFn fun i : Fin 16 =>
    mixColumn s[4 * (i.val / 4)] s[4 * (i.val / 4) + 1] s[4 * (i.val / 4) + 2] s[4 * (i.val / 4) + 3] (i.val % 4)

/-- Round (R110). -/
def rndf (s key : Block) : Block := arkf (mixf (shrf (subf s))) key

/-- FinalRound (R112), without MixColumns. -/
def frndf (s key : Block) : Block := arkf (shrf (subf s)) key

/-- Standard rounds `r, r+1, ..., r+n-1` of R140, each with its own round key. -/
def rounds (E : ExpandedKey) : Nat → Nat → Block → Block
  | 0, _, s => s
  | n + 1, r, s => rounds E n (r + 1) (rndf s (E (Fin.ofNat 11 r)))

/-- EncryptBlock (R140): round key 0, nine standard rounds, the final round with round key 10. -/
def encf (p : Block) (E : ExpandedKey) : Block := frndf (rounds E 9 1 (arkf p (E 0))) (E 10)

/-- Zero padding (R143): the first `n` bytes, then zeros. -/
def pad (x : Block) (n : Nat) : Block := Vector.ofFn fun i : Fin 16 => if i.val < n then x[i] else 0

/-- The 176-byte view of the expanded key (10_state.md R23): `E[j] = RK[j div 16][j mod 16]`. -/
def expandedByte (E : ExpandedKey) (j : Fin 176) : Byte := (E ⟨j.val / 16, by omega⟩)[j.val % 16]

/-- The slicing of a 176-byte buffer (43_transfer.md R124): round key `k` occupies bytes `[16k, 16k+16)`. -/
def sliceKey (buffer : List Byte) : ExpandedKey :=
  fun k => Vector.ofFn fun i : Fin 16 => buffer.getD (16 * k.val + i.val) 0

end Sys2Proof.Machine
end

