-- ==== Sys2Proof/Machine/Operands.lean ====
section
/-!
DEFINITION. The operands of the commands and the checks that come with them (spec/30_encoding.md R62, R63, 60_exceptions.md
R181, R182). Each answers the operand, or the response code of the check that fails.
-/

namespace Sys2Proof.Machine

/-- The round-key index in RSEL, if it is one of 0..10 (R62). -/
def keyIndex (k : BitVec 4) : Option (Fin 11) := if h : k.toNat < 11 then some ⟨k.toNat, h⟩ else none

/-- The round key that RSEL names: BAD_FIELD when it names none, then KEY_UNINIT when it is not loaded (R62, R181, R182). -/
def keyOperand (k : BitVec 4) (s : State) : Except Rsp Block :=
  match keyIndex k with
  | none => .error .badField
  | some i =>
    match s.rk[i] with
    | none => .error .keyUninit
    | some key => .ok key

/-- STATE, or STATE_UNINIT when STV = 0 (R181). -/
def stateOperand (s : State) : Except Rsp Block :=
  match s.stateReg with
  | none => .error .stateUninit
  | some x => .ok x

/-- All eleven round keys, or KEY_UNINIT when one of them is not loaded, that is, when KALL = 0 (R181). -/
def allKeysOperand (s : State) : Except Rsp ExpandedKey :=
  if h : ∀ k : Fin 11, kv s k = true then .ok fun k => (s.rk[k]).get (h k) else .error .keyUninit

/-- The block of ENCB: the first `n` bytes of din, padded with zeros, or BAD_FIELD when `n` is not in 1..16
(R63, 44_block_driver.md R143). -/
def blockOperand (n : BitVec 5) (s : State) : Except Rsp Block :=
  if 1 ≤ n.toNat ∧ n.toNat ≤ 16 then .ok (pad (bytes s.din) n.toNat) else .error .badField

end Sys2Proof.Machine
end

