-- ==== Sys2Proof/Machine/Ops.lean ====
section
/-!
DEFINITION. The operations the meanings share: register writes, the response that ends every command, the one way to end in an error
(spec/60_exceptions.md R184), trace events, the sequencer, and reset. The core has no trap and so no return from one
(R186).
-/

namespace Sys2Proof.Machine

/-! ### Registers -/

/-- `STATE <- x`, which makes STATE valid (10_state.md R24). -/
def writeState (x : Block) (s : State) : State := { s with stateReg := some x }

/-- `RK[k] <- x; KV[k] <- 1` (43_transfer.md R123). -/
def writeKey (k : Fin 11) (x : Block) (s : State) : State := { s with rk := s.rk.set k (some x) }

/-! ### Responses (R180, R183, R184, R185) -/

/-- `respond(OK, word(x))` with the bookkeeping of R185. -/
def respondData (x : Block) (s : State) : State :=
  { s with lastRsp := .ok, responses := s.responses ++ [⟨.ok, word x⟩] }

/-- `respond(OK, UNSPEC)` with the bookkeeping of R185: dout is a free value (R183), the one that
the number of the draw names: DESIGN CHOICE, log entry 2. -/
def respondUnspec (s : State) : State :=
  { s with lastRsp := .ok, responses := s.responses ++ [⟨.ok, Config.freeDout s.draws⟩], draws := s.draws + 1 }

/-- Ending in error `e` (R184): LASTRSP and ERR are updated, dout is a free value, the one that the number of the draw names
(DESIGN CHOICE, log entry 2), and nothing else changes. This is all the exception entry the core has. -/
def takeError (e : Rsp) (s : State) : State :=
  { s with
    lastRsp := e
    err := latchError s.err e
    responses := s.responses ++ [⟨e, Config.freeDout s.draws⟩]
    draws := s.draws + 1 }

/-! ### Trace port (R195, R196) -/

/-- What `trace(tag, v)` puts on the port: one event, or nothing when the port does not exist. -/
def traceEvents (tag : BitVec 8) (v : Block) : List TraceEvent :=
  if Config.traceEn then [⟨tag, word v⟩] else []

/-- `trace(tag, v)` (00_scope.md R9). -/
def emit (tag : BitVec 8) (v : Block) (s : State) : State := { s with trace := s.trace ++ traceEvents tag v }

/-! ### The round sequencer (44_block_driver.md R141) -/

/-- The transform of a step, with its round key. -/
def seqTransform (q : SeqPos) (E : ExpandedKey) (x : Block) : Block :=
  match q.ph with
  | .ark => arkf x (E q.rc)
  | .sub => subf x
  | .shr => shrf x
  | .mix => mixf x

/-- The step after a step: round 0 is ARK alone, round 10 leaves MIX out, and after its ARK the block is done. -/
def seqNext (q : SeqPos) : Option SeqPos :=
  match q.ph with
  | .sub => some ⟨q.rc, .shr⟩
  | .shr => if q.rc = 10 then some ⟨q.rc, .ark⟩ else some ⟨q.rc, .mix⟩
  | .mix => some ⟨q.rc, .ark⟩
  | .ark => if h : q.rc.val + 1 < 11 then some ⟨⟨q.rc.val + 1, h⟩, .sub⟩ else none

/-- The trace tag of a step (R141, R195). -/
def seqTag (q : SeqPos) : BitVec 8 := traceTag (BitVec.ofNat 4 q.rc.val) .inBlock q.ph

/-- One step: `STATE <- transform(STATE [, RK[rc]])`, then its trace event (R142). Nothing to do when no block runs. -/
def seqStep (E : ExpandedKey) (s : State) : State :=
  match s.seq, s.stateReg with
  | some q, some x =>
    { emit (seqTag q) (seqTransform q E x) (writeState (seqTransform q E x) s) with seq := seqNext q }
  | _, _ => s

/-- `n` steps. -/
def seqRun (E : ExpandedKey) : Nat → State → State
  | 0, s => s
  | n + 1, s => seqRun E n (seqStep E s)

/-- `STATE <- p` and the sequencer at rc = 0, ph = ARK (R30, R142). -/
def seqStart (p : Block) (s : State) : State := { writeState p s with seq := some ⟨0, .ark⟩ }

/-- `respond(OK, word(STATE))`. Every command that ends so has just written or read STATE, so there is a value. -/
def respondState (s : State) : State :=
  match s.stateReg with
  | some x => respondData x s
  | none => respondUnspec s

/-! ### Reset and the host's side of the ports -/

/-- `rst` goes to 1 (70_reset_and_hazards.md R210, R33): every register takes its reset value. What the host still holds
and what was already sent are not the core's and stay. -/
def enterReset (s : State) : State :=
  { State.reset with
    rst := true, inputs := s.inputs, din := s.din, responses := s.responses, trace := s.trace, draws := s.draws }

/-- `rst` goes to 0: reset has finished and READY is 1 (R211). -/
def leaveReset (s : State) : State := { s with rst := false }

/-- The first change of `rst` in the host's events, and the events without it. -/
def takeReset : List HostEvent → Option (HostEvent × List HostEvent)
  | [] => none
  | .assertReset :: es => some (.assertReset, es)
  | .releaseReset :: es => some (.releaseReset, es)
  | .command w d :: es => (takeReset es).map fun r => (r.1, .command w d :: r.2)
  | .abandoned w d :: es => (takeReset es).map fun r => (r.1, .abandoned w d :: r.2)

/-- The event the core takes next, and those left. While READY = 0 a command is not accepted and not lost: it waits, and only `rst`
itself is seen (R210, R221). -/
def takeEvent (rst : Bool) (es : List HostEvent) : Option (HostEvent × List HostEvent) :=
  if rst then takeReset es
  else
    match es with
    | [] => none
    | e :: rest => some (e, rest)

end Sys2Proof.Machine
end

