-- ==== Sys2Proof/Machine/BlockDriver.lean ====
section
/-!
DEFINITION. ENCB (spec/44_block_driver.md R142): the round sequencer run on one padded block.
-/

namespace Sys2Proof.Machine

/-- The number of steps of the schedule (R141). -/
def seqLength : Nat := 40

/-- ENCB (R142). All keys are checked before anything changes (R144). -/
def execEncb (n : BitVec 5) (s : State) : Host.Outcome State Fault Refusal :=
  match blockOperand n s with
  | .error e => .next (takeError e s)
  | .ok p =>
    match allKeysOperand s with
    | .error e => .next (takeError e s)
    | .ok E => .next (respondState (seqRun E seqLength (seqStart p s)))

end Sys2Proof.Machine
end

