-- ==== Sys2Proof/Machine/Elementary.lean ====
section
/-!
DEFINITION. ARK, SUB, SHR and MIX (spec/41_transforms.md R92, R94, R97, R101).
-/

namespace Sys2Proof.Machine

/-- The end of an elementary command: `STATE <- y`, its trace event, `respond(OK, word(STATE))`. -/
def finishElementary (r : BitVec 4) (ph : Phase) (y : Block) (s : State) : State :=
  respondState (emit (traceTag r .standalone ph) y (writeState y s))

/-- ARK (R92): KEY_UNINIT is checked before STATE_UNINIT. -/
def execArk (k : BitVec 4) (s : State) : Host.Outcome State Fault Refusal :=
  match keyOperand k s with
  | .error e => .next (takeError e s)
  | .ok key =>
    match stateOperand s with
    | .error e => .next (takeError e s)
    | .ok x => .next (finishElementary k .ark (arkf x key) s)

/-- SUB (R94). -/
def execSub (s : State) : Host.Outcome State Fault Refusal :=
  match stateOperand s with
  | .error e => .next (takeError e s)
  | .ok x => .next (finishElementary 0 .sub (subf x) s)

/-- SHR (R97). -/
def execShr (s : State) : Host.Outcome State Fault Refusal :=
  match stateOperand s with
  | .error e => .next (takeError e s)
  | .ok x => .next (finishElementary 0 .shr (shrf x) s)

/-- MIX (R101). -/
def execMix (s : State) : Host.Outcome State Fault Refusal :=
  match stateOperand s with
  | .error e => .next (takeError e s)
  | .ok x => .next (finishElementary 0 .mix (mixf x) s)

end Sys2Proof.Machine
end

