-- ==== Sys2Proof/Machine/Reserved.lean ====
section
/-!
DEFINITION. The reserved opcodes 0xB to 0xF (spec/30_encoding.md R66): every word ends with ILLEGAL_OP, whatever its other
fields.
-/

namespace Sys2Proof.Machine

/-- OP 0xB (R66). -/
def execReservedB (_rest : BitVec 12) (s : State) : Host.Outcome State Fault Refusal := .next (takeError .illegalOp s)

/-- OP 0xC (R66). -/
def execReservedC (_rest : BitVec 12) (s : State) : Host.Outcome State Fault Refusal := .next (takeError .illegalOp s)

/-- OP 0xD (R66). -/
def execReservedD (_rest : BitVec 12) (s : State) : Host.Outcome State Fault Refusal := .next (takeError .illegalOp s)

/-- OP 0xE (R66). -/
def execReservedE (_rest : BitVec 12) (s : State) : Host.Outcome State Fault Refusal := .next (takeError .illegalOp s)

/-- OP 0xF (R66). -/
def execReservedF (_rest : BitVec 12) (s : State) : Host.Outcome State Fault Refusal := .next (takeError .illegalOp s)

end Sys2Proof.Machine
end

