-- ==== Sys2Proof/Machine/Rounds.lean ====
section
/-!
DEFINITION. RND and FRND (spec/42_rounds.md R111, R113). Any round key 0..10 is accepted (R114).
-/

namespace Sys2Proof.Machine

/-- The events of a round on `x` with the key `key`: SUB, SHR, MIX, ARK, in that order (R111). -/
def emitRound (k : BitVec 4) (x key : Block) (s : State) : State :=
  emit (traceTag k .inRound .ark) (rndf x key)
    (emit (traceTag k .inRound .mix) (mixf (shrf (subf x)))
      (emit (traceTag k .inRound .shr) (shrf (subf x)) (emit (traceTag k .inRound .sub) (subf x) s)))

/-- The three events of a final round, which has no MIX (R113). -/
def emitFinalRound (k : BitVec 4) (x key : Block) (s : State) : State :=
  emit (traceTag k .inRound .ark) (frndf x key)
    (emit (traceTag k .inRound .shr) (shrf (subf x)) (emit (traceTag k .inRound .sub) (subf x) s))

/-- RND (R111). -/
def execRnd (k : BitVec 4) (s : State) : Host.Outcome State Fault Refusal :=
  match keyOperand k s with
  | .error e => .next (takeError e s)
  | .ok key =>
    match stateOperand s with
    | .error e => .next (takeError e s)
    | .ok x => .next (respondState (writeState (rndf x key) (emitRound k x key s)))

/-- FRND (R113). -/
def execFrnd (k : BitVec 4) (s : State) : Host.Outcome State Fault Refusal :=
  match keyOperand k s with
  | .error e => .next (takeError e s)
  | .ok key =>
    match stateOperand s with
    | .error e => .next (takeError e s)
    | .ok x => .next (respondState (writeState (frndf x key) (emitFinalRound k x key s)))

end Sys2Proof.Machine
end

