-- ==== Sys2Proof/Machine/Transfer.lean ====
section
/-!
DEFINITION. NOP, LDST, RDST and LDRK (spec/43_transfer.md R120 to R123).
-/

namespace Sys2Proof.Machine

/-- NOP (R120). -/
def execNop (s : State) : Host.Outcome State Fault Refusal := .next (respondUnspec s)

/-- LDST (R121). -/
def execLdst (s : State) : Host.Outcome State Fault Refusal :=
  .next (respondState (writeState (bytes s.din) s))

/-- RDST (R122). -/
def execRdst (s : State) : Host.Outcome State Fault Refusal :=
  match stateOperand s with
  | .error e => .next (takeError e s)
  | .ok _ => .next (respondState s)

/-- LDRK (R123). The key is not echoed. -/
def execLdrk (k : BitVec 4) (s : State) : Host.Outcome State Fault Refusal :=
  match keyIndex k with
  | none => .next (takeError .badField s)
  | some i => .next (respondUnspec (writeKey i (bytes s.din) s))

end Sys2Proof.Machine
end

