-- ==== Sys2Proof/Machine/Dispatch.lean ====
section
/-!
DEFINITION. One arm per constructor of Instr, each a direct call of its meaning.
-/

namespace Sys2Proof.Machine

def exec (i : Instr) (s : State) : Host.Outcome State Fault Refusal :=
  match i with
  | .nop => Sys2Proof.Machine.execNop s
  | .ldst => Sys2Proof.Machine.execLdst s
  | .rdst => Sys2Proof.Machine.execRdst s
  | .ldrk k => Sys2Proof.Machine.execLdrk k s
  | .ark k => Sys2Proof.Machine.execArk k s
  | .sub => Sys2Proof.Machine.execSub s
  | .shr => Sys2Proof.Machine.execShr s
  | .mix => Sys2Proof.Machine.execMix s
  | .rnd k => Sys2Proof.Machine.execRnd k s
  | .frnd k => Sys2Proof.Machine.execFrnd k s
  | .encb n => Sys2Proof.Machine.execEncb n s
  | .reservedB rest => Sys2Proof.Machine.execReservedB rest s
  | .reservedC rest => Sys2Proof.Machine.execReservedC rest s
  | .reservedD rest => Sys2Proof.Machine.execReservedD rest s
  | .reservedE rest => Sys2Proof.Machine.execReservedE rest s
  | .reservedF rest => Sys2Proof.Machine.execReservedF rest s

end Sys2Proof.Machine
end

