-- ==== Sys2Proof/Machine/Command.lean ====
section
/-!
DEFINITION. How a command word the host issues is run: decoded, then carried out or ended with BAD_FIELD (spec/30_encoding.md
R67), and what a reset in the middle of one leaves (70_reset_and_hazards.md R212).
-/

namespace Sys2Proof.Machine

/-- The response code of a decode failure: every one of them is BAD_FIELD (30_encoding.md R67). -/
def decodeErrorCode : DecodeError → Rsp
  | .rsvNotZero => .badField
  | .rselAboveTen => .badField
  | .rselNotZero => .badField
  | .nbOutOfRange => .badField
  | .nbNotZero => .badField

/-- One command, from acceptance to response, as one atomic step (00_scope.md R10): the word is decoded with its operand on
the `din` port, and carried out, or ends in the decode error. -/
def issue (w : CmdWord) (d : BusWord) (s : State) : Host.Outcome State Fault Refusal :=
  match decode w with
  | .ok i => exec i { s with din := d }
  | .error e => .next (takeError (decodeErrorCode e) { s with din := d })

/-- The trace events a command would emit in full. -/
def issueTrace (w : CmdWord) (d : BusWord) (s : State) : List TraceEvent :=
  match issue w d s with
  | .next t => t.trace.drop s.trace.length
  | .fault _ => []
  | .refused _ => []

/-- A command abandoned by reset (R212): no response, no effect but that of reset. A part of its trace events may have been emitted
already; how many is a free value. -/
def abandon (w : CmdWord) (d : BusWord) (s : State) : State :=
  enterReset
    { s with
      din := d
      trace := s.trace ++ (issueTrace w d s).take (Config.freeEmitted s.draws)
      draws := s.draws + 1 }

/-- What one host event does to the core. -/
def runEvent (ev : HostEvent) (s : State) : Host.Outcome State Fault Refusal :=
  match ev with
  | .command w d => issue w d s
  | .abandoned w d => .next (abandon w d s)
  | .assertReset => .next (enterReset s)
  | .releaseReset => .next (leaveReset s)

/-- The state in which the very next step runs the command word `w` with the operand on the `din` port: the host presents it
before anything else it holds, and the core is ready. -/
def presentWord (w : CmdWord) (s : State) : State :=
  { s with rst := false, inputs := .command w s.din :: s.inputs }

end Sys2Proof.Machine
end

