-- ==== Sys2Proof/Machine/Step.lean ====
section
/-!
DEFINITION. One transaction (spec/00_scope.md R10): the core takes the host's next event and carries it out. With nothing to take it
is idle and keeps all its state (60_exceptions.md R194).
-/

namespace Sys2Proof.Machine

/-- One step. -/
def step (s : State) : Host.Outcome State Fault Refusal :=
  match takeEvent s.rst s.inputs with
  | none => .next s
  | some (ev, rest) => runEvent ev { s with inputs := rest }

/-- The state whose next step runs a word of the opcode table. -/
def State.withFetchWord (s : State) (nbits w : Nat) : State := presentWord (tableWord nbits w) s

end Sys2Proof.Machine
end

