-- ==== Sys2Proof/Machine/Message.lean ====
section
/-!
DEFINITION. The ECB message procedure (spec/45_message_driver.md R160 to R169) as the host runs it on the core, and the function it
must compute. The key schedule is external (43_transfer.md R124).
-/

namespace Sys2Proof.Machine

/-! ### The function (R160, R161) -/

/-- `PL(L)`, the smallest multiple of 16 that is at least `L` (R161). -/
def paddedLength (len : Nat) : Nat := 16 * ((len + 15) / 16)

/-- The number of blocks of a message. -/
def blockCount (P : List Byte) : Nat := paddedLength P.length / 16

/-- The padded buffer Q: the message and then zero bytes (R160). -/
def paddedMessage (P : List Byte) : List Byte := P ++ List.replicate (paddedLength P.length - P.length) 0

/-- Bytes `16j .. 16j+15` of a buffer. -/
def window (Q : List Byte) (j : Nat) : Block := Vector.ofFn fun i : Fin 16 => Q.getD (16 * j + i.val) 0

/-- EncryptMessage for an expanded key (R160). -/
def ecbWith (P : List Byte) (E : ExpandedKey) : List Byte :=
  (List.range (blockCount P)).flatMap fun j => (encf (window (paddedMessage P) j) E).toList

/-- `ECBf(P, key)` (R160). -/
def ecbf (P : List Byte) (key : Block) : List Byte := ecbWith P (Config.keySchedule key)

/-! ### The commands (R162, 30_encoding.md R70) -/

/-- `ldrk k, x`. -/
def ldrkCommand (k : Fin 11) (x : Block) : HostEvent := .command (encode (.ldrk (BitVec.ofNat 4 k.val))) (word x)

/-- The pseudo-instruction `ldkey E`: `ldrk 0` to `ldrk 10`, in that order (R70). -/
def ldkeyCommands (E : ExpandedKey) : List HostEvent := (List.finRange 11).map fun k => ldrkCommand k (E k)

/-- `n_j` of R162(c): the count of message bytes in block `j`. -/
def blockBytes (P : List Byte) (j : Nat) : Nat := min 16 (P.length - 16 * j)

/-- `w_j` of R162(c): the message bytes of block `j`; the rest are any bytes, here `filler`. -/
def blockWord (P : List Byte) (filler : Nat → Byte) (j : Nat) : BusWord :=
  word (Vector.ofFn fun i : Fin 16 => if i.val < blockBytes P j then P.getD (16 * j + i.val) 0 else filler (16 * j + i.val))

/-- `encb n_j, w_j`. -/
def blockCommand (P : List Byte) (filler : Nat → Byte) (j : Nat) : HostEvent :=
  .command (encode (.encb (BitVec.ofNat 5 (blockBytes P j)))) (blockWord P filler j)

/-- The commands of R162(c), in block order. -/
def blockCommands (P : List Byte) (filler : Nat → Byte) : List HostEvent :=
  (List.range (blockCount P)).map (blockCommand P filler)

/-! ### The procedure (R162, R166, R169) -/

/-- `n` steps. -/
def steps : Nat → State → Host.Outcome State Fault Refusal
  | 0, s => .next s
  | n + 1, s =>
    match step s with
    | .next t => steps n t
    | .fault r => .fault r
    | .refused r => .refused r

/-- The host hands over events and waits until each has been taken. A step that stopped would leave the state it was in; the
core has none. -/
def drive (es : List HostEvent) (s : State) : State :=
  match steps (s.inputs.length + es.length) { s with inputs := s.inputs ++ es } with
  | .next t => t
  | .fault _ => s
  | .refused _ => s

/-- The responses a core has sent in `t` beyond those of `s`. -/
def newResponses (s t : State) : List Response := t.responses.drop s.responses.length

/-- The bytes the host takes from the responses to `n` blocks, in their order: nothing when one of them is not OK (R166), and
nothing unless there is one for each block. -/
def collect : Nat → List Response → Option (List Byte)
  | 0, [] => some []
  | n + 1, r :: rs => if r.rsp = .ok then (collect n rs).map fun bs => (bytes r.dout).toList ++ bs else none
  | 0, _ :: _ => none
  | _ + 1, [] => none

/-- STATUS.KALL as the host reads it (R162(b), 10_state.md R28). -/
def readsKall (s : State) : Bool := (status s).getLsbD 13

/-- Steps (b) to (d) of R162 after the keys are loaded: STATUS must show KALL, the blocks are issued, and the ciphertext is
kept only when every block has a response and every response is OK. A host that cancels after some blocks issues no more and
keeps nothing (R169). R169 cancels between blocks: that a cancellation after the last block, so of a message whose blocks are all
done, keeps nothing either is the model's DESIGN CHOICE (log entry 13). -/
def runBlocks (P : List Byte) (filler : Nat → Byte) (cancelAfter : Option Nat) (s : State) : Option (List Byte) × State :=
  if readsKall s then
    match cancelAfter with
    | some n => (none, drive ((blockCommands P filler).take n) s)
    | none =>
      let t := drive (blockCommands P filler) s
      (collect (blockCount P) (newResponses s t), t)
  else (none, s)

/-- The host's message procedure (R162): the key length is checked before any command (R126, R166), an empty message issues
none (R161, D14), and otherwise the expanded key is made outside the core and loaded, and the blocks are run. -/
def encryptMessage (key P : List Byte) (filler : Nat → Byte) (cancelAfter : Option Nat) (s : State) :
    Option (List Byte) × State :=
  if key.length ≠ 16 then (none, s)
  else if P = [] then (some [], s)
  else runBlocks P filler cancelAfter (drive (ldkeyCommands (Config.keySchedule (window key 0))) s)

end Sys2Proof.Machine
end

