-- ==== Sys2Proof/Machine/Assembler.lean ====
section
/-!
DEFINITION. The assembler syntax of spec/30_encoding.md R69 and the pseudo-instructions of R70. A program text is a list of
characters; it becomes the commands the host issues, or nothing when a line is not of the syntax.
-/

namespace Sys2Proof.Machine

/-- A character in lower case: mnemonics are case-insensitive (R69). -/
def lowerChar (c : Char) : Char := if 65 ≤ c.toNat ∧ c.toNat ≤ 90 then Char.ofNat (c.toNat + 32) else c

/-- Blank, tab or carriage return. R69 names no separator: that these three are blank is the model's DESIGN CHOICE (log entry 14). -/
def isBlank (c : Char) : Bool := c.toNat == 32 || c.toNat == 9 || c.toNat == 13

/-- The text without the blanks at its two ends. -/
def trim (cs : List Char) : List Char := ((cs.dropWhile isBlank).reverse.dropWhile isBlank).reverse

/-- The pieces between separators, at least one. -/
def splitAt (sep : Char) : List Char → List (List Char)
  | [] => [[]]
  | c :: cs =>
    if c = sep then [] :: splitAt sep cs
    else
      match splitAt sep cs with
      | [] => [[c]]
      | p :: ps => (c :: p) :: ps

/-- The value of a decimal digit. -/
def decDigit (c : Char) : Option Nat := if 48 ≤ c.toNat ∧ c.toNat ≤ 57 then some (c.toNat - 48) else none

/-- The value of a hex digit, after `lowerChar`. -/
def hexDigit (c : Char) : Option Nat :=
  if 48 ≤ c.toNat ∧ c.toNat ≤ 57 then some (c.toNat - 48)
  else if 97 ≤ c.toNat ∧ c.toNat ≤ 102 then some (c.toNat - 87) else none

/-- The number that digits of a base write, most significant first, after those already read. -/
def digitsValue (base : Nat) (digit : Char → Option Nat) : Nat → List Char → Option Nat
  | acc, [] => some acc
  | acc, c :: cs =>
    match digit c with
    | none => none
    | some d => digitsValue base digit (acc * base + d) cs

/-- A decimal number with at least one digit. R69 says only "decimal": that leading zeros may be written (`ark 010`) is the model's
DESIGN CHOICE (log entry 14). -/
def parseDecimal (cs : List Char) : Option Nat := if cs = [] then none else digitsValue 10 decDigit 0 cs

/-- A number of exactly `n` hex digits. -/
def parseHex (n : Nat) (cs : List Char) : Option Nat := if cs.length = n then digitsValue 16 hexDigit 0 cs else none

/-- `<w>`: exactly 32 hex digits, which are the bus word (R69). -/
def parseBusWord (cs : List Char) : Option BusWord := (parseHex 32 cs).map (BitVec.ofNat 128)

/-- `<k>`: a decimal index 0..10 (R69). -/
def parseKeyIndex (cs : List Char) : Option (BitVec 4) :=
  (parseDecimal cs).bind fun k => if k ≤ 10 then some (BitVec.ofNat 4 k) else none

/-- `<n>`: a decimal count 1..16 (R69). -/
def parseByteCount (cs : List Char) : Option (BitVec 5) :=
  (parseDecimal cs).bind fun n => if 1 ≤ n ∧ n ≤ 16 then some (BitVec.ofNat 5 n) else none

/-- `<hex16>`: `0x` and four hex digits (R69). Exactly four is the model's DESIGN CHOICE, and so is `0X` for `0x`, which
`assembleLine` has put in lower case by now (log entry 14). -/
def parseCmdWord : List Char → Option CmdWord
  | '0' :: 'x' :: cs => (parseHex 4 cs).map (BitVec.ofNat 16)
  | _ => none

/-- A byte string: two hex digits a byte, byte 0 first (00_scope.md R7). -/
def parseBytes : List Char → Option (List Byte)
  | [] => some []
  | [_] => none
  | a :: b :: cs => (parseHex 2 [a, b]).bind fun x => (parseBytes cs).map fun xs => BitVec.ofNat 8 x :: xs

/-- A command without `<w>` is issued with din = 0 (R69). -/
def plainCommand (i : Instr) : List HostEvent := [.command (encode i) 0]

/-- The commands of a line, given its mnemonic and its operands (R69, R70). -/
def assembleOp (mnemonic : List Char) (operands : List (List Char)) : Option (List HostEvent) :=
  match mnemonic, operands with
  | ['n', 'o', 'p'], [] => some (plainCommand .nop)
  | ['l', 'd', 's', 't'], [w] => (parseBusWord w).map fun d => [.command (encode .ldst) d]
  | ['r', 'd', 's', 't'], [] => some (plainCommand .rdst)
  | ['l', 'd', 'r', 'k'], [k, w] =>
    (parseKeyIndex k).bind fun i => (parseBusWord w).map fun d => [.command (encode (.ldrk i)) d]
  | ['a', 'r', 'k'], [k] => (parseKeyIndex k).map fun i => plainCommand (.ark i)
  | ['s', 'u', 'b'], [] => some (plainCommand .sub)
  | ['s', 'h', 'r'], [] => some (plainCommand .shr)
  | ['m', 'i', 'x'], [] => some (plainCommand .mix)
  | ['r', 'n', 'd'], [k] => (parseKeyIndex k).map fun i => plainCommand (.rnd i)
  | ['f', 'r', 'n', 'd'], [k] => (parseKeyIndex k).map fun i => plainCommand (.frnd i)
  | ['e', 'n', 'c', 'b'], [n, w] =>
    (parseByteCount n).bind fun m => (parseBusWord w).map fun d => [.command (encode (.encb m)) d]
  | ['.', 'w', 'o', 'r', 'd'], [h] => (parseCmdWord h).map fun c => [.command c 0]
  | ['.', 'w', 'o', 'r', 'd'], [h, w] => (parseCmdWord h).bind fun c => (parseBusWord w).map fun d => [.command c d]
  | ['e', 'n', 'c', 'b', 'l', 'k'], [w] => (parseBusWord w).map fun d => [.command (encode (.encb 16)) d]
  | ['l', 'd', 'k', 'e', 'y'], [e] =>
    if e.length = 352 then (parseBytes e).map fun bs => ldkeyCommands (sliceKey bs) else none
  | ['e', 'c', 'b'], [] => some (blockCommands [] fun _ => 0)
  | ['e', 'c', 'b'], [p] => (parseBytes p).map fun bs => blockCommands bs fun _ => 0
  | ['r', 'o', 'u', 'n', 'd'], [k] => (parseKeyIndex k).map fun i => plainCommand (.rnd i)
  | ['f', 'i', 'n', 'a', 'l'], [k] => (parseKeyIndex k).map fun i => plainCommand (.frnd i)
  | _, _ => none

/-- The operands after a mnemonic: none, or pieces between commas. -/
def operandsOf (cs : List Char) : List (List Char) :=
  let rest := trim cs
  if rest = [] then [] else (splitAt ',' rest).map trim

/-- The commands of one line; a comment starts at `;` (R69). R69 says that one command goes on each line: that a line may also hold
none, being blank or a comment alone, and then issues nothing, is the model's DESIGN CHOICE (log entry 14). R69 makes mnemonics
case-insensitive and shows `<hex16>` with a small `0x`. That the whole line, operands included, is read in lower case, so that
hex digits and the prefix of `<hex16>` may be of either case (`.word 0X000B`), is the model's DESIGN CHOICE (log entry 14). -/
def assembleLine (line : List Char) : Option (List HostEvent) :=
  let code := (trim (line.takeWhile fun c => c != ';')).map lowerChar
  if code = [] then some []
  else assembleOp (code.takeWhile fun c => !isBlank c) (operandsOf (code.dropWhile fun c => !isBlank c))

/-- The commands of the lines, in order; nothing when a line is not of the syntax. -/
def assembleLines : List (List Char) → Option (List HostEvent)
  | [] => some []
  | l :: ls => (assembleLine l).bind fun es => (assembleLines ls).map fun rest => es ++ rest

/-- The commands of a program text, one line each (R69, R70). -/
def assemble (text : List Char) : Option (List HostEvent) := assembleLines (splitAt '\n' text)

end Sys2Proof.Machine
end

