-- ==== Sys2Proof/Machine/System.lean ====
section
/-!
DEFINITION. Several core instances (spec/60_exceptions.md R197): each has its own state, and they share nothing that can change. A message
may be spread over them (45_message_driver.md R167).
-/

namespace Sys2Proof.Machine

/-- `n` cores (R197). A system of the hardware has `Config.nInst` of them; what is said here holds for any number. -/
abbrev System (n : Nat) := Vector State n

/-- All N_INST cores after reset. DESIGN CHOICE (log entry 2): every core starts with its counter of draws at 0, so in the model two
cores with equal counts see one and the same UNSPEC word; of the hardware they are draws under no law (00_scope.md R9). -/
def systemReset : System Config.nInst := Vector.replicate Config.nInst State.reset

/-- One step of instance `i`. -/
def systemStep {n : Nat} (i : Fin n) (sys : System n) : Host.Outcome (System n) Fault Refusal :=
  match step sys[i] with
  | .next t => .next (sys.set i t)
  | .fault r => .fault r
  | .refused r => .refused r

/-! ### A message over several instances (45_message_driver.md R166, R167, R169) -/

/-- Every instance is loaded with the same expanded key (R167). -/
def loadAll {n : Nat} (E : ExpandedKey) (sys : System n) : System n := sys.map (drive (ldkeyCommands E))

/-- The host reads STATUS of every instance and requires KALL = 1 of each (R162(b), R166). -/
def allReadKall {n : Nat} (sys : System n) : Bool := decide (∀ i : Fin n, readsKall sys[i] = true)

/-- The ciphertext block in the response to one ENCB: nothing when it is not OK, and nothing when none came. -/
def blockOf : List Response → Option Block
  | [] => none
  | [r] => if r.rsp = .ok then some (bytes r.dout) else none
  | _ :: _ :: _ => none

/-- Runs block `j` of the message on instance `i`. -/
def runBlockOn {n : Nat} (i : Fin n) (P : List Byte) (filler : Nat → Byte) (j : Nat) (sys : System n) : Option Block × System n :=
  let t := drive [blockCommand P filler j] sys[i]
  (blockOf (newResponses sys[i] t), sys.set i t)

/-- Runs blocks in the order the host issues them, each on the instance named beside it: the blocks of ciphertext with their
indexes, or nothing when one of them failed (R166(2)). -/
def runBlocksOn {n : Nat} (P : List Byte) (filler : Nat → Byte) :
    List (Nat × Fin n) → System n → Option (List (Nat × Block)) × System n
  | [], sys => (some [], sys)
  | (j, i) :: rest, sys =>
    let first := runBlockOn i P filler j sys
    let others := runBlocksOn P filler rest first.2
    (first.1.bind fun b => others.1.map fun bs => (j, b) :: bs, others.2)

/-- The output buffer: for each offset `16j` of the given indexes the block that was written there (R167), or nothing when an index
has none. -/
def assembleBlocks (blocks : List (Nat × Block)) : List Nat → Option (List Byte)
  | [] => some []
  | j :: js => (blocks.lookup j).bind fun b => (assembleBlocks blocks js).map fun bs => b.toList ++ bs

/-- A message spread over the instances (R167). `schedule` says in which order the host issues the blocks and which instance runs
each. The checks are those of `encryptMessage`: the key length before any command, no command for the empty message, and
STATUS.KALL of every instance before any ENCB (R166(1)). A host that cancels keeps nothing (R169), even
after the last block, which is the model's DESIGN CHOICE (log entry 13). -/
def encryptParallel {n : Nat} (schedule : List (Nat × Fin n)) (key P : List Byte) (filler : Nat → Byte)
    (cancelAfter : Option Nat) (sys : System n) : Option (List Byte) × System n :=
  if key.length ≠ 16 then (none, sys)
  else if P = [] then (some [], sys)
  else
    let loaded := loadAll (Config.keySchedule (window key 0)) sys
    if allReadKall loaded then
      match cancelAfter with
      | some m => (none, (runBlocksOn P filler (schedule.take m) loaded).2)
      | none =>
        let done := runBlocksOn P filler schedule loaded
        (done.1.bind fun blocks => assembleBlocks blocks (List.range (blockCount P)), done.2)
    else (none, loaded)

end Sys2Proof.Machine
end

