-- ==== Sys2Proof/Safety.lean ====
section
/-!
DEFINITION. The terms claims use: what a safe state and a good run are, and the tables of the spec that a claim holds the machine
against (response codes by cause and priority, the legal words, the sequencer's schedule). They are written from the spec, not from
the meanings.
-/

namespace Sys2Proof.Machine

/-! ### Safe states -/

/-- Every register holds its reset value (spec/10_state.md R33). -/
abbrev registersReset (s : State) : Prop :=
  s.stateReg = none ∧ (∀ k : Fin 11, s.rk[k] = none) ∧ s.err = .ok ∧ s.lastRsp = .ok ∧ s.seq = none

/-- What holds of the core between commands: no block is in progress (R30, R32), LASTRSP shows an error only if ERR holds one
(R25), and during reset every register is at its reset value (R210). -/
abbrev safeState (s : State) : Prop :=
  s.seq = none ∧ (s.err = .ok → s.lastRsp = .ok) ∧ (s.rst = true → registersReset s)

/-- The registers a host can learn of agree: STATE, RK, ERR and LASTRSP. -/
abbrev sameRegisters (s t : State) : Prop :=
  s.stateReg = t.stateReg ∧ s.rk = t.rk ∧ s.err = t.err ∧ s.lastRsp = t.lastRsp

/-- The result of a run (70_reset_and_hazards.md R214): the responses and the STATUS word. -/
def runResult (s : State) : List Response × StatusWord := (s.responses, status s)

/-- A good run (R214): every response the program expected to be OK was OK. -/
def goodRun (expectedOk : List Bool) (responses : List Response) : Prop :=
  expectedOk.length = responses.length ∧
    ∀ p ∈ expectedOk.zip responses, p.1 = true → p.2.rsp = .ok

/-! ### Response codes (60_exceptions.md R180 to R182, 30_encoding.md R66, R67) -/

/-- LDRK, ARK, RND and FRND use RSEL. -/
def usesKey (w : CmdWord) : Bool :=
  opField w == 0x3 || opField w == 0x4 || opField w == 0x8 || opField w == 0x9

/-- ENCB uses NB. -/
def usesCount (w : CmdWord) : Bool := opField w == 0xA

/-- ILLEGAL_OP: OP in 0xB..0xF. -/
def illegalWord (w : CmdWord) : Bool := decide (0xB ≤ (opField w).toNat)

/-- BAD_FIELD: a field outside what the opcode allows. -/
def badFieldWord (w : CmdWord) : Bool :=
  rsvField w != 0 ||
  (if usesKey w then decide (10 < (rselField w).toNat) else rselField w != 0) ||
  (if usesCount w then decide (¬(1 ≤ (nbField w).toNat ∧ (nbField w).toNat ≤ 16)) else nbField w != 0)

/-- KV of the round key that RSEL names; an index above 10 names none. -/
def namedKeyValid (w : CmdWord) (s : State) : Bool :=
  (List.finRange 11).any fun k => k.val == (rselField w).toNat && kv s k

/-- KEY_UNINIT: a round key the command needs is not loaded. -/
def keyMissing (w : CmdWord) (s : State) : Bool :=
  ((opField w == 0x4 || opField w == 0x8 || opField w == 0x9) && !namedKeyValid w s) ||
  (opField w == 0xA && !kall s)

/-- STATE_UNINIT: the command reads STATE and it is not loaded. -/
def stateMissing (w : CmdWord) (s : State) : Bool :=
  (opField w == 0x2 || opField w == 0x4 || opField w == 0x5 || opField w == 0x6 || opField w == 0x7 ||
   opField w == 0x8 || opField w == 0x9) && !stv s

/-- The code of a command (R182): the first that applies, in this order. -/
def responseCode (w : CmdWord) (s : State) : Rsp :=
  if illegalWord w then .illegalOp
  else if badFieldWord w then .badField
  else if keyMissing w s then .keyUninit
  else if stateMissing w s then .stateUninit
  else .ok

/-- The commands whose OK response carries STATE on dout (R183). -/
def returnsState (w : CmdWord) : Bool := !(opField w == 0x0 || opField w == 0x3) && !illegalWord w

/-- The legal command words (30_encoding.md R64): six plain ones, eleven for each of four keyed opcodes, sixteen of ENCB. -/
def legalWords : List CmdWord :=
  [0x0000, 0x0001, 0x0002, 0x0005, 0x0006, 0x0007] ++
  ([0x3, 0x4, 0x8, 0x9] : List (BitVec 4)).flatMap (fun op => (List.range 11).map fun k => 0#8 ++ BitVec.ofNat 4 k ++ op) ++
  (List.range 16).map fun n => 0#3 ++ BitVec.ofNat 5 (n + 1) ++ 0x0A#8

/-! ### The sequencer's schedule (44_block_driver.md R141) -/

/-- The 40 steps, as the table of R141 lists them. -/
def schedule : List SeqPos :=
  [⟨0, .ark⟩] ++
  ([1, 2, 3, 4, 5, 6, 7, 8, 9] : List (Fin 11)).flatMap (fun r => [⟨r, .sub⟩, ⟨r, .shr⟩, ⟨r, .mix⟩, ⟨r, .ark⟩]) ++
  [⟨10, .sub⟩, ⟨10, .shr⟩, ⟨10, .ark⟩]

/-- STATE after the steps of a schedule. -/
def scheduleResult (E : ExpandedKey) : List SeqPos → Block → Block
  | [], x => x
  | q :: qs, x => scheduleResult E qs (seqTransform q E x)

/-- The tag and the value of STATE after each step of a schedule. -/
def scheduleEvents (E : ExpandedKey) : List SeqPos → Block → List TraceEvent
  | [], _ => []
  | q :: qs, x => ⟨seqTag q, word (seqTransform q E x)⟩ :: scheduleEvents E qs (seqTransform q E x)

/-- Events as the port shows them: all of them, or none when there is no port (60_exceptions.md R196). -/
def onTracePort (events : List TraceEvent) : List TraceEvent := if Config.traceEn then events else []

/-- How many events a command that ends with OK puts on the trace port (R196). -/
def eventCount : Instr → Nat
  | .nop => 0
  | .ldst => 0
  | .rdst => 0
  | .ldrk _ => 0
  | .ark _ => 1
  | .sub => 1
  | .shr => 1
  | .mix => 1
  | .rnd _ => 4
  | .frnd _ => 3
  | .encb _ => 40
  | .reservedB _ => 0
  | .reservedC _ => 0
  | .reservedD _ => 0
  | .reservedE _ => 0
  | .reservedF _ => 0

/-! ### Words and checks of the three operand shapes, for claims about one command -/

/-- The words of a plain command: BAD_FIELD if RSEL, NB or RSV is not 0, else the command. -/
def plainWords (op : BitVec 4) (i : Instr) : Prop :=
  ∀ w, opField w = op →
    ((rselField w ≠ 0 ∨ nbField w ≠ 0 ∨ rsvField w ≠ 0) →
      ∀ d s, issue w d s = .next (takeError .badField { s with din := d })) ∧
    (rselField w = 0 → nbField w = 0 → rsvField w = 0 → decode w = .ok i)

/-- The words of a keyed command: BAD_FIELD if k > 10, NB or RSV is not 0, else the command with k = RSEL. -/
def keyedWords (op : BitVec 4) (mk : BitVec 4 → Instr) : Prop :=
  ∀ w, opField w = op →
    ((10 < (rselField w).toNat ∨ nbField w ≠ 0 ∨ rsvField w ≠ 0) →
      ∀ d s, issue w d s = .next (takeError .badField { s with din := d })) ∧
    ((rselField w).toNat ≤ 10 → nbField w = 0 → rsvField w = 0 → decode w = .ok (mk (rselField w)))

/-- The words of ENCB: BAD_FIELD if RSEL or RSV is not 0 or n is not in 1..16, else the command with n = NB. -/
def countedWords (op : BitVec 4) (mk : BitVec 5 → Instr) : Prop :=
  ∀ w, opField w = op →
    ((rselField w ≠ 0 ∨ rsvField w ≠ 0 ∨ ¬(1 ≤ (nbField w).toNat ∧ (nbField w).toNat ≤ 16)) →
      ∀ d s, issue w d s = .next (takeError .badField { s with din := d })) ∧
    (rselField w = 0 → rsvField w = 0 → 1 ≤ (nbField w).toNat → (nbField w).toNat ≤ 16 → decode w = .ok (mk (nbField w)))

/-- The checks of a command that reads STATE and the round key k, in their order: KEY_UNINIT, then STATE_UNINIT. An index above
10, which no legal word has, is BAD_FIELD. -/
def keyThenStateChecks (mk : BitVec 4 → Instr) : Prop :=
  (∀ k s, 10 < k.toNat → exec (mk k) s = .next (takeError .badField s)) ∧
  (∀ (k : BitVec 4) (i : Fin 11) s, i.val = k.toNat → kv s i = false →
    exec (mk k) s = .next (takeError .keyUninit s)) ∧
  (∀ (k : BitVec 4) (i : Fin 11) s, i.val = k.toNat → kv s i = true → stv s = false →
    exec (mk k) s = .next (takeError .stateUninit s))

/-- The check of a command that reads STATE alone. -/
def stateCheck (i : Instr) : Prop := ∀ s, stv s = false → exec i s = .next (takeError .stateUninit s)

/-! ### Vectors and sequences of commands -/

/-- The round keys of the known-answer vector (95_test_vectors.md V1). They are the AES-128 expansion of the vector's key, from
general knowledge and not from the source. -/
def v1Keys : ExpandedKey := fun k =>
  bytes (([0x000102030405060708090a0b0c0d0e0f, 0xd6aa74fdd2af72fadaa678f1d6ab76fe, 0xb692cf0b643dbdf1be9bc5006830b3fe,
    0xb6ff744ed2c2c9bf6c590cbf0469bf41, 0x47f7f7bc95353e03f96c32bcfd058dfd, 0x3caaa3e8a99f9deb50f3af57adf622aa,
    0x5e390f7df7a69296a7553dc10aa31f6b, 0x14f9701ae35fe28c440adf4d4ea9c026, 0x47438735a41c65b9e016baf4aebf7ad2,
    0x549932d1f08557681093ed9cbe2c974e, 0x13111d7fe3944a17f307a78b4d2b30c5] : List BusWord).getD k.val 0)

/-- The twelve commands `ldst w; ark 0; rnd 1; ...; rnd 9; frnd 10` (44_block_driver.md R146). -/
def steppedCommands (w : BusWord) : List HostEvent :=
  [.command (encode .ldst) w, .command (encode (.ark 0)) 0, .command (encode (.rnd 1)) 0, .command (encode (.rnd 2)) 0,
   .command (encode (.rnd 3)) 0, .command (encode (.rnd 4)) 0, .command (encode (.rnd 5)) 0, .command (encode (.rnd 6)) 0,
   .command (encode (.rnd 7)) 0, .command (encode (.rnd 8)) 0, .command (encode (.rnd 9)) 0,
   .command (encode (.frnd 10)) 0]

end Sys2Proof.Machine
end

