-- ==== Sys2Proof/Certificates/Slice0/Obligations.lean ====
section
/-!
DEFINITION. The statements about the core. Each docstring names the rule of the spec it formalises.
-/

open Sys2Proof Sys2Proof.Machine

/-! ### Encoding -/

/-- 30_encoding.md R61, R64: no bit of an operand is lost between a command and its word. That the reserved opcodes are commands of their own
is the model's form (log entry 12). -/
def Obligations.DecodeOfEncodeIsTheCommand : Prop :=
  ∀ i : Instr, i.wellFormed = true → decode (encode i) = .ok i

/-- 30_encoding.md R66, R67: every word is one command or one error. A reserved opcode beats a bad field. That a word with a reserved opcode
decodes to a command of its own, which ends with ILLEGAL_OP, where R67 raises the error in decode, is the model's form (log
entry 12). -/
def Obligations.EveryWordIsOneCommandOrOneError : Prop :=
  ∀ w : CmdWord,
    (illegalWord w = true →
      (∃ i, decode w = .ok i ∧ encode i = w) ∧
      ∀ d s, issue w d s = .next (takeError .illegalOp { s with din := d })) ∧
    (illegalWord w = false → badFieldWord w = true →
      (∃ e, decode w = .error e) ∧
      ∀ d s, issue w d s = .next (takeError .badField { s with din := d })) ∧
    (illegalWord w = false → badFieldWord w = false →
      ∃ i, decode w = .ok i ∧ encode i = w ∧ i.wellFormed = true ∧ ∀ d s, issue w d s = exec i { s with din := d })

/-- 30_encoding.md R64: the legal words, 66 of them, are exactly those the decoder takes for a command that is not reserved. -/
def Obligations.LegalWordsAreSixtySix : Prop :=
  legalWords.length = 66 ∧ legalWords.Nodup ∧
  ∀ w : CmdWord, w ∈ legalWords ↔ illegalWord w = false ∧ ∃ i, decode w = .ok i

/-- 30_encoding.md R65: the table of examples, in both directions. -/
def Obligations.EncodingExamplesDecode : Prop :=
  ∀ p ∈ ([(.nop, 0x0000), (.ldst, 0x0001), (.rdst, 0x0002), (.ldrk 0, 0x0003), (.ldrk 10, 0x00A3), (.ark 0, 0x0004),
      (.ark 10, 0x00A4), (.sub, 0x0005), (.shr, 0x0006), (.mix, 0x0007), (.rnd 1, 0x0018), (.rnd 9, 0x0098),
      (.frnd 10, 0x00A9), (.encb 16, 0x100A), (.encb 4, 0x040A), (.encb 1, 0x010A)] : List (Instr × CmdWord)),
    encode p.1 = p.2 ∧ decode p.2 = .ok p.1

/-- opcode_table.json: a word fits the row of the command it decodes to, and no other row. -/
def Obligations.WordsFitExactlyTheirRow : Prop :=
  ∀ (w : CmdWord) (i : Instr), decode w = .ok i →
    tableRow i ∈ opcodeTable ∧ rowFits (tableRow i) w = true ∧ ∀ r ∈ opcodeTable, rowFits r w = true → r = tableRow i

/-! ### The step -/

/-- The core takes the host's oldest command, when it is ready, and runs what it decodes to; a word that decodes to nothing
ends with BAD_FIELD. The same for a word of the opcode table placed by `withFetchWord`. -/
def Obligations.StepRunsTheDecodedCommand : Prop :=
  (∀ (s : State) (w : CmdWord) (d : BusWord) (rest : List HostEvent), s.rst = false → s.inputs = .command w d :: rest →
    (∀ i, decode w = .ok i → step s = exec i { s with inputs := rest, din := d }) ∧
    (∀ e, decode w = .error e → step s = .next (takeError .badField { s with inputs := rest, din := d }))) ∧
  (∀ (s : State) (nbits v : Nat) (i : Instr), decodeTableWord nbits v = some i →
    step (s.withFetchWord nbits v) = exec i { s with rst := false })

/-- 60_exceptions.md R194: with no command outstanding the core is idle, READY = 1, and keeps all its state. -/
def Obligations.IdleCoreKeepsItsState : Prop :=
  ∀ s : State, s.rst = false → s.inputs = [] → step s = .next s ∧ ready s = true

/-- 70_reset_and_hazards.md R230, 60_exceptions.md R180, 20_memory.md R49: whatever commands the host queues, after `n` steps the first `n` have
been accepted and each has exactly one response, in their order; the core never hangs. That it never hangs is an assumption of the
spec's model (log entry 15). -/
def Obligations.EveryAcceptedCommandResponds : Prop :=
  ∀ (cs : List (CmdWord × BusWord)) (n : Nat) (s : State), n ≤ cs.length → s.rst = false →
    s.inputs = cs.map (fun c => HostEvent.command c.1 c.2) →
    ∃ (t : State) (rs : List Response), steps n s = .next t ∧ t.rst = false ∧
      t.inputs = (cs.drop n).map (fun c => HostEvent.command c.1 c.2) ∧ t.responses = s.responses ++ rs ∧ rs.length = n

/-- 10_state.md R25, R30, R32, R33, 70_reset_and_hazards.md R210: what holds between commands is kept by every step, whatever the host
does. That the registers are at their reset values already while `rst` is 1 is the model's choice (log entry 6). -/
def Obligations.EveryStepKeepsSafeStates : Prop :=
  ∀ s t : State, safeState s → step s = .next t → safeState t

/-- The state after reset is safe. That `State.reset` has `rst` = 0 is the model's choice (log entry 6). -/
def Obligations.ResetStateIsSafe : Prop := safeState State.reset

/-! ### Responses -/

/-- 60_exceptions.md R182: every command ends with one code, the first that applies in the order ILLEGAL_OP, BAD_FIELD, KEY_UNINIT,
STATE_UNINIT; with the rule's two examples. -/
def Obligations.ResponseCodeIsTheFirstThatApplies : Prop :=
  (∀ (w : CmdWord) (d : BusWord) (s : State), ∃ (t : State) (dout : BusWord), issue w d s = .next t ∧
    t.lastRsp = responseCode w s ∧ t.responses = s.responses ++ [⟨responseCode w s, dout⟩]) ∧
  responseCode 0x00C4 State.reset = .badField ∧ responseCode 0x0034 State.reset = .keyUninit

/-- 60_exceptions.md R184: a command that ends in an error writes LASTRSP, and ERR if it was 0, and nothing else. -/
def Obligations.ErrorWritesOnlyItsRecord : Prop :=
  ∀ (w : CmdWord) (d : BusWord) (s : State), responseCode w s ≠ .ok →
    issue w d s = .next
      { s with
        din := d
        lastRsp := responseCode w s
        err := if s.err = .ok then responseCode w s else s.err
        responses := s.responses ++ [⟨responseCode w s, Config.freeDout s.draws⟩]
        draws := s.draws + 1 }

/-- 60_exceptions.md R185: a command that completes with OK sets LASTRSP to 0 and leaves ERR unchanged. -/
def Obligations.SuccessClearsLastrspOnly : Prop :=
  ∀ (w : CmdWord) (d : BusWord) (s : State), responseCode w s = .ok →
    ∃ t, issue w d s = .next t ∧ t.lastRsp = .ok ∧ t.err = s.err

/-- 60_exceptions.md R183: an OK response carries STATE as it is after the command, except for NOP and LDRK; every other response
carries a free value. -/
def Obligations.ResultWordIsStateOrFree : Prop :=
  ∀ (w : CmdWord) (d : BusWord) (s : State), ∃ t, issue w d s = .next t ∧
    (responseCode w s = .ok → returnsState w = true →
      ∃ x, t.stateReg = some x ∧ t.responses = s.responses ++ [⟨.ok, word x⟩]) ∧
    ((responseCode w s ≠ .ok ∨ returnsState w = false) →
      t.responses = s.responses ++ [⟨responseCode w s, Config.freeDout s.draws⟩] ∧ t.draws = s.draws + 1)

/-- 60_exceptions.md R186: an error blocks no later command. Every word issued after it ends with the code, and leaves the STATE, RK and trace,
that it would have had without the failed command; so the same command gives the same code again. -/
def Obligations.ErrorsDoNotBlockLaterCommands : Prop :=
  ∀ (w : CmdWord) (d : BusWord) (s : State), responseCode w s ≠ .ok →
    ∃ t, issue w d s = .next t ∧
      (∀ (w' : CmdWord) (d' : BusWord), ∃ u v, issue w' d' t = .next u ∧ issue w' d' s = .next v ∧
        u.lastRsp = responseCode w' s ∧ v.lastRsp = responseCode w' s ∧
        u.stateReg = v.stateReg ∧ u.rk = v.rk ∧ u.trace = v.trace) ∧
      ∀ d' : BusWord, ∃ u, issue w d' t = .next u ∧ u.lastRsp = t.lastRsp

/-- 10_state.md R25: ERR keeps the first error and LASTRSP the newest code, and no command reads either. Where the dout of the two runs is UNSPEC,
that it is equal says only that both are one draw (the model's choice, log entry 2). -/
def Obligations.ErrKeepsTheFirstError : Prop :=
  ∀ (w : CmdWord) (d : BusWord) (s : State), ∃ t, issue w d s = .next t ∧
    t.lastRsp = responseCode w s ∧
    (s.err ≠ .ok → t.err = s.err) ∧ (s.err = .ok → t.err = responseCode w s) ∧
    ∀ e l : Rsp, ∃ u, issue w d { s with err := e, lastRsp := l } = .next u ∧
      u.stateReg = t.stateReg ∧ u.rk = t.rk ∧ u.lastRsp = t.lastRsp ∧ u.responses = t.responses ∧ u.trace = t.trace

/-! ### The commands: words, checks in order, and the whole next state of each -/

/-- 43_transfer.md R120. -/
def Obligations.NopOnlyClearsLastrsp : Prop :=
  plainWords 0x0 .nop ∧
  (∀ s : State, exec .nop s = .next
    { s with
      lastRsp := .ok
      responses := s.responses ++ [⟨.ok, Config.freeDout s.draws⟩]
      draws := s.draws + 1 }) ∧
  ∃ t, exec .nop State.reset = .next t ∧ status t = 0x00000001

/-- 43_transfer.md R121. -/
def Obligations.LdstLoadsStateFromDin : Prop :=
  plainWords 0x1 .ldst ∧
  (∀ s : State, exec .ldst s = .next
    { s with stateReg := some (bytes s.din), lastRsp := .ok, responses := s.responses ++ [⟨.ok, s.din⟩] }) ∧
  (∀ (d : BusWord) (i : Fin 16), (bytes d)[i] = d.extractLsb' (120 - 8 * i.val) 8) ∧
  (bytes 0x00112233445566778899aabbccddeeff)[0] = 0x00 ∧ (bytes 0x00112233445566778899aabbccddeeff)[1] = 0x11 ∧
  (bytes 0x00112233445566778899aabbccddeeff)[4] = 0x44

/-- 43_transfer.md R122. -/
def Obligations.RdstReturnsState : Prop :=
  plainWords 0x2 .rdst ∧ stateCheck .rdst ∧
  (∀ (s : State) (x : Block), s.stateReg = some x →
    exec .rdst s = .next { s with lastRsp := .ok, responses := s.responses ++ [⟨.ok, word x⟩] }) ∧
  word (shrf (bytes 0x000102030405060708090a0b0c0d0e0f)) = 0x00050a0f04090e03080d02070c01060b

/-- 43_transfer.md R123. KALL becomes 1 when the last of the 11 is loaded, in whatever order. -/
def Obligations.LdrkLoadsTheNamedRoundKey : Prop :=
  keyedWords 0x3 .ldrk ∧
  (∀ (k : BitVec 4) (s : State), 10 < k.toNat → exec (.ldrk k) s = .next (takeError .badField s)) ∧
  (∀ (k : BitVec 4) (i : Fin 11) (s : State), i.val = k.toNat →
    exec (.ldrk k) s = .next
      { s with
        rk := s.rk.set i.val (some (bytes s.din))
        lastRsp := .ok
        responses := s.responses ++ [⟨.ok, Config.freeDout s.draws⟩]
        draws := s.draws + 1 }) ∧
  (∀ (k : BitVec 4) (i : Fin 11) (s t : State), i.val = k.toNat → exec (.ldrk k) s = .next t →
    t.rk[i] = some (bytes s.din) ∧ (∀ j : Fin 11, j ≠ i → t.rk[j] = s.rk[j]) ∧
    (kall t = true ↔ ∀ j : Fin 11, j ≠ i → kv s j = true)) ∧
  ∃ t, exec (.ldrk 1) { State.reset with din := 0xd6aa74fdd2af72fadaa678f1d6ab76fe } = .next t ∧
    t.rk[1] = some (bytes 0xd6aa74fdd2af72fadaa678f1d6ab76fe) ∧ (status t).getLsbD 3 = true

/-- 41_transforms.md R92. -/
def Obligations.ArkAddsTheNamedRoundKey : Prop :=
  keyedWords 0x4 .ark ∧ keyThenStateChecks .ark ∧
  (∀ (k : BitVec 4) (i : Fin 11) (s : State) (key x : Block), i.val = k.toNat → s.rk[i] = some key → s.stateReg = some x →
    exec (.ark k) s = .next
      { s with
        stateReg := some (arkf x key)
        lastRsp := .ok
        responses := s.responses ++ [⟨.ok, word (arkf x key)⟩]
        trace := s.trace ++ onTracePort [⟨traceTag k .standalone .ark, word (arkf x key)⟩] }) ∧
  (∀ x key : Block, arkf x (Vector.replicate 16 0) = x ∧ arkf x x = Vector.replicate 16 0 ∧ arkf (arkf x key) key = x) ∧
  word (arkf (bytes 0x00112233445566778899aabbccddeeff) (bytes 0x000102030405060708090a0b0c0d0e0f)) =
    0x00102030405060708090a0b0c0d0e0f0

/-- 41_transforms.md R94. -/
def Obligations.SubSubstitutesEveryByte : Prop :=
  plainWords 0x5 .sub ∧ stateCheck .sub ∧
  (∀ (s : State) (x : Block), s.stateReg = some x →
    exec .sub s = .next
      { s with
        stateReg := some (subf x)
        lastRsp := .ok
        responses := s.responses ++ [⟨.ok, word (subf x)⟩]
        trace := s.trace ++ onTracePort [⟨traceTag 0 .standalone .sub, word (subf x)⟩] }) ∧
  (∀ b : Byte, sbox b = 0 ↔ b = 0x52) ∧
  subf (Vector.replicate 16 0x00) = Vector.replicate 16 0x63 ∧ subf (Vector.replicate 16 0xFF) = Vector.replicate 16 0x16 ∧
  word (subf (bytes 0x000102030405060708090a0b0c0d0e0f)) = 0x637c777bf26b6fc53001672bfed7ab76

/-- 41_transforms.md R97. -/
def Obligations.ShrRotatesTheRows : Prop :=
  plainWords 0x6 .shr ∧ stateCheck .shr ∧
  (∀ (s : State) (x : Block), s.stateReg = some x →
    exec .shr s = .next
      { s with
        stateReg := some (shrf x)
        lastRsp := .ok
        responses := s.responses ++ [⟨.ok, word (shrf x)⟩]
        trace := s.trace ++ onTracePort [⟨traceTag 0 .standalone .shr, word (shrf x)⟩] }) ∧
  (∀ x : Block, (∀ c : Fin 4, (shrf x)[4 * c.val] = x[4 * c.val]) ∧ shrf (shrf (shrf (shrf x))) = x ∧
    ((∀ i : Fin 16, x[i] = x[i.val % 4]) → shrf x = x)) ∧
  word (shrf (bytes 0x000102030405060708090a0b0c0d0e0f)) = 0x00050a0f04090e03080d02070c01060b

/-- 41_transforms.md R101. -/
def Obligations.MixMixesTheColumns : Prop :=
  plainWords 0x7 .mix ∧ stateCheck .mix ∧
  (∀ (s : State) (x : Block), s.stateReg = some x →
    exec .mix s = .next
      { s with
        stateReg := some (mixf x)
        lastRsp := .ok
        responses := s.responses ++ [⟨.ok, word (mixf x)⟩]
        trace := s.trace ++ onTracePort [⟨traceTag 0 .standalone .mix, word (mixf x)⟩] }) ∧
  (∀ (a : Byte) (r : Fin 4), mixColumn a a a a r.val = a) ∧
  mixColumn 0x80 0 0 0 0 = 0x1b ∧ mixColumn 0x80 0 0 0 1 = 0x80 ∧ mixColumn 0x80 0 0 0 2 = 0x80 ∧
  mixColumn 0x80 0 0 0 3 = 0x9b ∧
  word (mixf (bytes 0xdb135345f20a225c01010101c6c6c6c6)) = 0x8e4da1bc9fdc589d01010101c6c6c6c6

/-- 42_rounds.md R111, and R114: any loaded round key serves. -/
def Obligations.RndAppliesAStandardRound : Prop :=
  keyedWords 0x8 .rnd ∧ keyThenStateChecks .rnd ∧
  (∀ (k : BitVec 4) (i : Fin 11) (s : State) (key x : Block), i.val = k.toNat → s.rk[i] = some key → s.stateReg = some x →
    exec (.rnd k) s = .next
      { s with
        stateReg := some (rndf x key)
        lastRsp := .ok
        responses := s.responses ++ [⟨.ok, word (rndf x key)⟩]
        trace := s.trace ++ onTracePort
          [⟨traceTag k .inRound .sub, word (subf x)⟩, ⟨traceTag k .inRound .shr, word (shrf (subf x))⟩,
           ⟨traceTag k .inRound .mix, word (mixf (shrf (subf x)))⟩, ⟨traceTag k .inRound .ark, word (rndf x key)⟩] }) ∧
  word (rndf (bytes 0x00102030405060708090a0b0c0d0e0f0) (bytes 0xd6aa74fdd2af72fadaa678f1d6ab76fe)) =
    0x89d810e8855ace682d1843d8cb128fe4

/-- 42_rounds.md R113, and R114. -/
def Obligations.FrndAppliesAFinalRound : Prop :=
  keyedWords 0x9 .frnd ∧ keyThenStateChecks .frnd ∧
  (∀ (k : BitVec 4) (i : Fin 11) (s : State) (key x : Block), i.val = k.toNat → s.rk[i] = some key → s.stateReg = some x →
    exec (.frnd k) s = .next
      { s with
        stateReg := some (frndf x key)
        lastRsp := .ok
        responses := s.responses ++ [⟨.ok, word (frndf x key)⟩]
        trace := s.trace ++ onTracePort
          [⟨traceTag k .inRound .sub, word (subf x)⟩, ⟨traceTag k .inRound .shr, word (shrf (subf x))⟩,
           ⟨traceTag k .inRound .ark, word (frndf x key)⟩] }) ∧
  word (frndf (bytes 0xbd6e7c3df2b5779e0b61216e8b10b689) (bytes 0x13111d7fe3944a17f307a78b4d2b30c5)) =
    0x69c4e0d86a7b0430d8cdb78070b4c55a

/-- 44_block_driver.md R142, R144: the keys are checked before anything changes, the old STATE is not read, and the events are
those of the schedule of R141. With R142's corner case of trailing zero bytes, and its example, whose round keys are those of
95_test_vectors.md V1. -/
def Obligations.EncbEncryptsOneBlock : Prop :=
  countedWords 0xA .encb ∧
  (∀ (n : BitVec 5) (s : State), ¬(1 ≤ n.toNat ∧ n.toNat ≤ 16) → exec (.encb n) s = .next (takeError .badField s)) ∧
  (∀ (n : BitVec 5) (s : State), 1 ≤ n.toNat → n.toNat ≤ 16 → kall s = false →
    exec (.encb n) s = .next (takeError .keyUninit s)) ∧
  (∀ (n : BitVec 5) (s : State) (E : ExpandedKey), 1 ≤ n.toNat → n.toNat ≤ 16 → (∀ k : Fin 11, s.rk[k] = some (E k)) →
    exec (.encb n) s = .next
      { s with
        stateReg := some (encf (pad (bytes s.din) n.toNat) E)
        lastRsp := .ok
        seq := none
        responses := s.responses ++ [⟨.ok, word (encf (pad (bytes s.din) n.toNat) E)⟩]
        trace := s.trace ++ onTracePort (scheduleEvents E schedule (pad (bytes s.din) n.toNat)) }) ∧
  (∀ (x : Block) (n m : Nat), n ≤ m → (∀ i : Fin 16, n ≤ i.val → i.val < m → x[i] = 0) → pad x m = pad x n) ∧
  word (encf (pad (bytes 0x00112233445566778899aabbccddeeff) 16) v1Keys) = 0x69c4e0d86a7b0430d8cdb78070b4c55a

/-- 30_encoding.md R66: a word with a reserved opcode ends with ILLEGAL_OP, whatever its other fields. That it decodes to a command of its own
is the model's form (log entry 12). -/
def Obligations.ReservedOpcodesEndWithIllegalOp : Prop :=
  ∀ (rest : BitVec 12) (s : State),
    exec (.reservedB rest) s = .next (takeError .illegalOp s) ∧ exec (.reservedC rest) s = .next (takeError .illegalOp s) ∧
    exec (.reservedD rest) s = .next (takeError .illegalOp s) ∧ exec (.reservedE rest) s = .next (takeError .illegalOp s) ∧
    exec (.reservedF rest) s = .next (takeError .illegalOp s) ∧
    decode (rest ++ 0xB#4) = .ok (.reservedB rest) ∧ decode (rest ++ 0xC#4) = .ok (.reservedC rest) ∧
    decode (rest ++ 0xD#4) = .ok (.reservedD rest) ∧ decode (rest ++ 0xE#4) = .ok (.reservedE rest) ∧
    decode (rest ++ 0xF#4) = .ok (.reservedF rest)

/-! ### Whole-machine rules about commands -/

/-- 10_state.md R21, R22: who writes and who reads STATE and RK. NOP, RDST and LDRK and every failed command leave STATE alone, and only
LDRK writes RK. NOP, LDST, LDRK and ENCB do the same whatever STATE was. ARK, RND and FRND do the same whatever the round
keys are that RSEL does not name, ENCB needs all eleven, and every other command does the same whatever RK is. Where the dout
of the two runs is UNSPEC, that it is equal says only that both are one draw (the model's choice, log entry 2). -/
def Obligations.RegistersAreTouchedOnlyAsListed : Prop :=
  (∀ (i : Instr) (s t : State), exec i s = .next t →
    ((i = .nop ∨ i = .rdst ∨ (∃ k, i = .ldrk k) ∨ t.lastRsp ≠ .ok) → t.stateReg = s.stateReg) ∧
    ((∀ k, i ≠ .ldrk k) → t.rk = s.rk)) ∧
  (∀ (i : Instr) (s : State) (old : Option Block), (i = .nop ∨ i = .ldst ∨ (∃ k, i = .ldrk k) ∨ ∃ n, i = .encb n) →
    ∃ t u, exec i s = .next t ∧ exec i { s with stateReg := old } = .next u ∧
      u.rk = t.rk ∧ u.lastRsp = t.lastRsp ∧ u.err = t.err ∧ u.responses = t.responses ∧ u.trace = t.trace ∧
      (t.lastRsp = .ok → (i = .ldst ∨ ∃ n, i = .encb n) → u.stateReg = t.stateReg)) ∧
  (∀ (i : Instr) (s : State) (keys : Vector (Option Block) 11),
    (∀ (b : BitVec 4) (k : Fin 11), (i = .ark b ∨ i = .rnd b ∨ i = .frnd b) → k.val = b.toNat → keys[k] = s.rk[k]) →
    (∀ n, i = .encb n → keys = s.rk) →
    ∃ t u, exec i s = .next t ∧ exec i { s with rk := keys } = .next u ∧
      u.stateReg = t.stateReg ∧ u.lastRsp = t.lastRsp ∧ u.err = t.err ∧ u.responses = t.responses ∧ u.trace = t.trace ∧
      (∀ (b : BitVec 4) (k : Fin 11), i = .ldrk b → k.val = b.toNat → u.rk[k] = t.rk[k]) ∧
      ∀ k : Fin 11, (∀ b : BitVec 4, i = .ldrk b → k.val ≠ b.toNat) → u.rk[k] = keys[k])

/-- 10_state.md R24, over one step: a valid bit goes to 0 only when the host asserts `rst`, alone or during a command, and goes to 1 only by a
command that sets it; a successful LDST or ENCB sets STV and a successful LDRK k sets KV[k]; once reset has finished all of
them are 0. That the host's events are a queue, and which one is taken, is the model's choice (log entries 3 and 6). -/
def Obligations.OnlyResetClearsValidBits : Prop :=
  (∀ s t : State, step s = .next t →
    ((stv s = true ∧ stv t = false ∨ ∃ k : Fin 11, kv s k = true ∧ kv t k = false) →
      ∃ ev rest, takeEvent s.rst s.inputs = some (ev, rest) ∧ (ev = .assertReset ∨ ∃ w d, ev = .abandoned w d)) ∧
    (stv s = false → stv t = true →
      ∃ w d rest i, takeEvent s.rst s.inputs = some (.command w d, rest) ∧ decode w = .ok i ∧ (i = .ldst ∨ ∃ n, i = .encb n)) ∧
    (∀ k : Fin 11, kv s k = false → kv t k = true →
      ∃ w d rest b, takeEvent s.rst s.inputs = some (.command w d, rest) ∧ decode w = .ok (.ldrk b) ∧ k.val = b.toNat)) ∧
  (∀ (i : Instr) (s : State), ∃ t, exec i s = .next t ∧
    (t.lastRsp = .ok → (i = .ldst ∨ ∃ n, i = .encb n) → stv t = true) ∧
    (∀ (b : BitVec 4) (k : Fin 11), i = .ldrk b → k.val = b.toNat → kv t k = true)) ∧
  (∀ s : State, stv (leaveReset (enterReset s)) = false ∧ ∀ k : Fin 11, kv (leaveReset (enterReset s)) k = false)

/-- 30_encoding.md R61, U17: a command that does not use din behaves the same whatever din is. Where its dout is UNSPEC, that it is equal says only
that both runs have one draw (the model's choice, log entry 2). -/
def Obligations.UnusedOperandHasNoEffect : Prop :=
  ∀ (w : CmdWord) (d d' : BusWord) (s : State), opField w ≠ 0x1 → opField w ≠ 0x3 → opField w ≠ 0xA →
    ∃ t, issue w d s = .next t ∧ issue w d' s = .next { t with din := d' }

/-- 20_memory.md R46: NOP, LDST, RDST, LDRK and ENCB, repeated with the same din, give the same end state. -/
def Obligations.RepeatedTransfersAreIdempotent : Prop :=
  ∀ (w : CmdWord) (d : BusWord) (s : State),
    (opField w = 0x0 ∨ opField w = 0x1 ∨ opField w = 0x2 ∨ opField w = 0x3 ∨ opField w = 0xA) →
    ∃ t u, issue w d s = .next t ∧ issue w d t = .next u ∧ sameRegisters t u

/-- 60_exceptions.md R196: a command that ends with OK puts its number of events on the trace port, in one run after those already sent; a
failed command puts none, and without TRACE_EN there are none. -/
def Obligations.TraceEventsAreCounted : Prop :=
  ∀ (i : Instr) (s : State), ∃ (t : State) (ev : List TraceEvent), exec i s = .next t ∧ t.trace = s.trace ++ ev ∧
    (Config.traceEn = false → ev = []) ∧ (t.lastRsp ≠ .ok → ev = []) ∧
    (Config.traceEn = true → t.lastRsp = .ok → ev.length = eventCount i)

/-- 60_exceptions.md R195: the fields of a trace tag, and the rule's two examples. -/
def Obligations.TraceTagHasItsFields : Prop :=
  (∀ (r : BitVec 4) (src : TraceSource) (ph : Phase),
    (traceTag r src ph).extractLsb' 4 4 = r ∧
    (traceTag r src ph).extractLsb' 2 2 = (match src with | .inBlock => 0#2 | .standalone => 1#2 | .inRound => 2#2) ∧
    (traceTag r src ph).extractLsb' 0 2 = (match ph with | .ark => 0#2 | .sub => 1#2 | .shr => 2#2 | .mix => 3#2)) ∧
  traceTag 3 .inBlock .mix = 0x33 ∧ seqTag ⟨10, .ark⟩ = 0xA0

/-! ### STATUS and reset -/

/-- 10_state.md R28: every field of STATUS, at its bits, with the codes of 60_exceptions.md R180 in ERR and LASTRSP, and the rule's
examples. -/
def Obligations.StatusWordHasItsFields : Prop :=
  (∀ s : State,
    (status s).getLsbD 0 = !s.rst ∧ (status s).getLsbD 1 = s.stateReg.isSome ∧
    (∀ k : Fin 11, (status s).getLsbD (2 + k.val) = (s.rk[k]).isSome) ∧
    ((status s).getLsbD 13 = true ↔ ∀ k : Fin 11, (s.rk[k]).isSome = true) ∧
    (status s).extractLsb' 14 2 = 0 ∧ (status s).extractLsb' 16 4 = rspCode s.err ∧
    (status s).extractLsb' 20 4 = rspCode s.lastRsp ∧ (status s).extractLsb' 24 8 = 0) ∧
  (∀ r : Rsp, rspCode r =
    (match r with | .ok => 0#4 | .illegalOp => 1#4 | .badField => 2#4 | .keyUninit => 3#4 | .stateUninit => 4#4)) ∧
  status State.reset = 0x00000001 ∧
  (∀ (E : ExpandedKey) (x : Block),
    status { State.reset with rk := Vector.ofFn fun k => some (E k) } = 0x00003FFD ∧
    status { State.reset with rk := Vector.ofFn fun k => some (E k), stateReg := some x } = 0x00003FFF)

/-- 10_state.md R33: the reset value of every piece of state once reset has finished, READY during and after reset, and no trace event pending.
`State.reset` is the core once reset has finished, with nothing asked of it, which is the model's choice (log entry 6). -/
def Obligations.ResetValuesAreAsListed : Prop :=
  (∀ s : State,
    ready (enterReset s) = false ∧ ready (leaveReset (enterReset s)) = true ∧ registersReset (leaveReset (enterReset s)) ∧
    stv (leaveReset (enterReset s)) = false ∧ (∀ k : Fin 11, kv (leaveReset (enterReset s)) k = false) ∧
    kall (leaveReset (enterReset s)) = false ∧ (leaveReset (enterReset s)).trace = s.trace) ∧
  leaveReset (enterReset State.reset) = State.reset ∧ registersReset State.reset ∧ ready State.reset = true ∧
  State.reset.inputs = [] ∧ State.reset.responses = [] ∧ State.reset.trace = []

/-- 70_reset_and_hazards.md R210, R211, R221, on the model's queue of host events (log entry 6): asserting `rst` puts every register at its reset value; while it is 1 no command is accepted (it is
held), READY = 0, and nothing is sent; releasing it makes the core ready with nothing else changed. -/
def Obligations.ResetHoldsTheCore : Prop :=
  (∀ (s : State) (rest : List HostEvent), s.inputs = .assertReset :: rest →
    ∃ t, step s = .next t ∧ registersReset t ∧ ready t = false ∧ t.inputs = rest ∧ t.responses = s.responses ∧
      t.trace = s.trace) ∧
  (∀ s t : State, s.rst = true → step s = .next t →
    ready s = false ∧ t.responses = s.responses ∧ t.trace = s.trace ∧ (registersReset s → registersReset t) ∧
    t.inputs.filter (fun e => e ≠ .assertReset ∧ e ≠ .releaseReset) =
      s.inputs.filter (fun e => e ≠ .assertReset ∧ e ≠ .releaseReset)) ∧
  (∀ (s : State) (rest : List HostEvent), s.inputs = .releaseReset :: rest →
    step s = .next { s with rst := false, inputs := rest } ∧ ready { s with rst := false, inputs := rest } = true)

/-- 70_reset_and_hazards.md R212, on the model's queue of host events (log entry 7): a command abandoned by reset gets no response and leaves nothing but the reset state; of its trace events a
first part may have been sent. How long that part is is a free value. -/
def Obligations.AbandonedCommandLeavesOnlyReset : Prop :=
  ∀ (s : State) (w : CmdWord) (d : BusWord) (rest : List HostEvent), s.rst = false → s.inputs = .abandoned w d :: rest →
    ∃ (t u : State) (full : List TraceEvent) (n : Nat), step s = .next t ∧ issue w d s = .next u ∧
      registersReset t ∧ ready t = false ∧ t.responses = s.responses ∧ t.inputs = rest ∧
      u.trace = s.trace ++ full ∧ t.trace = s.trace ++ full.take n

/-! ### Bytes, tables and transforms -/

/-- 20_memory.md R40: the byte order of a bus word, both ways. -/
def Obligations.BusByteOrder : Prop :=
  (∀ (w : BusWord) (i : Fin 16), (bytes w)[i] = w.extractLsb' (120 - 8 * i.val) 8) ∧
  (∀ (x : Block) (i : Fin 16), (word x).extractLsb' (120 - 8 * i.val) 8 = x[i]) ∧
  (∀ w : BusWord, word (bytes w) = w) ∧
  (bytes 0x00112233445566778899aabbccddeeff)[0] = 0x00 ∧ (bytes 0x00112233445566778899aabbccddeeff)[15] = 0xff

/-- 40_lookup_tables.md R80, R81: the table is the affine map of the inverse in GF(2^8), and it is a bijection. -/
def Obligations.SboxIsTheAffineOfTheInverse : Prop :=
  (∀ b : Byte, sbox b = sboxAffine (gfInv b)) ∧ (∀ b : Byte, b ≠ 0 → gfMul b (gfInv b) = 1) ∧ gfInv 0 = 0 ∧
  Function.Bijective sbox ∧ sbox 0x53 = 0xed

/-- 40_lookup_tables.md R82, R83, R84: the printed tables are the formulas, and both maps are linear bijections. -/
def Obligations.MulTablesAreTheFormulas : Prop :=
  (∀ b : Byte, tableRead mul2Rows b = (b <<< 1) ^^^ (if b.getLsbD 7 then 0x1B#8 else 0x00#8)) ∧
  (∀ b : Byte, tableRead mul3Rows b = mul2 b ^^^ b) ∧ (∀ b : Byte, mul2 b = tableRead mul2Rows b) ∧
  (∀ b : Byte, mul3 b = tableRead mul3Rows b) ∧
  Function.Bijective mul2 ∧ Function.Bijective mul3 ∧
  (∀ a b : Byte, mul2 (a ^^^ b) = mul2 a ^^^ mul2 b ∧ mul3 (a ^^^ b) = mul3 a ^^^ mul3 b) ∧
  mul2 0 = 0 ∧ mul3 0 = 0 ∧ mul2 0x80 = 0x1B ∧ mul2 0xFF = 0xE5 ∧ mul3 0xFF = 0x1A ∧ mul3 1 = 3

/-- 41_transforms.md R90, R91: bytewise XOR, its own inverse. -/
def Obligations.AddRoundKeyIsItsOwnInverse : Prop :=
  ∀ s key : Block, (∀ i : Fin 16, (arkf s key)[i] = s[i] ^^^ key[i]) ∧ arkf (arkf s key) key = s

/-- 41_transforms.md R93: bytewise, and a bijection on 16-byte values. -/
def Obligations.SubBytesIsABijection : Prop :=
  (∀ (s : Block) (i : Fin 16), (subf s)[i] = sbox s[i]) ∧ Function.Bijective subf

/-- 41_transforms.md R95, R96: row `r` is rotated left by `r`; the fourth power is the identity; the rows come back after 1, 4, 2 and 4
applications, that is, row `r` is back after `n` exactly when 4 divides `r * n`. -/
def Obligations.ShiftRowsRotatesEachRow : Prop :=
  (∀ (s : Block) (r c : Fin 4), (shrf s)[4 * c.val + r.val] = s[4 * ((c.val + r.val) % 4) + r.val]) ∧
  (∀ (s : Block) (i : Fin 16), (shrf s)[i] =
    s[([0, 5, 10, 15, 4, 9, 14, 3, 8, 13, 2, 7, 12, 1, 6, 11] : List (Fin 16)).getD i.val 0]) ∧
  ([0, 5, 10, 15, 4, 9, 14, 3, 8, 13, 2, 7, 12, 1, 6, 11] : List (Fin 16)).Nodup ∧ Function.Bijective shrf ∧ (∀ s : Block, shrf (shrf (shrf (shrf s))) = s) ∧
  (∀ (r : Fin 4) (n : Nat),
    (∀ (s : Block) (c : Fin 4), (shrf^[n] s)[4 * c.val + r.val] = s[4 * c.val + r.val]) ↔ 4 ∣ r.val * n)

/-- 41_transforms.md R98, R99, R100: the four rows of the matrix, column by column; linear over XOR; a column of equal bytes is fixed; a
column depends on its own input column alone. -/
def Obligations.MixColumnsIsLinearByColumn : Prop :=
  (∀ (s : Block) (c : Fin 4),
    (mixf s)[4 * c.val] = mul2 s[4 * c.val] ^^^ mul3 s[4 * c.val + 1] ^^^ s[4 * c.val + 2] ^^^ s[4 * c.val + 3] ∧
    (mixf s)[4 * c.val + 1] = s[4 * c.val] ^^^ mul2 s[4 * c.val + 1] ^^^ mul3 s[4 * c.val + 2] ^^^ s[4 * c.val + 3] ∧
    (mixf s)[4 * c.val + 2] = s[4 * c.val] ^^^ s[4 * c.val + 1] ^^^ mul2 s[4 * c.val + 2] ^^^ mul3 s[4 * c.val + 3] ∧
    (mixf s)[4 * c.val + 3] = mul3 s[4 * c.val] ^^^ s[4 * c.val + 1] ^^^ s[4 * c.val + 2] ^^^ mul2 s[4 * c.val + 3]) ∧
  (∀ s t : Block, mixf (arkf s t) = arkf (mixf s) (mixf t)) ∧
  mixf (Vector.replicate 16 0) = Vector.replicate 16 0 ∧
  (∀ (s : Block) (c : Fin 4) (a : Byte), (∀ r : Fin 4, s[4 * c.val + r.val] = a) → ∀ r : Fin 4, (mixf s)[4 * c.val + r.val] = a) ∧
  (∀ (s t : Block) (c : Fin 4), (∀ r : Fin 4, s[4 * c.val + r.val] = t[4 * c.val + r.val]) →
    ∀ r : Fin 4, (mixf s)[4 * c.val + r.val] = (mixf t)[4 * c.val + r.val])

/-- 42_rounds.md R110, R112, 44_block_driver.md R140: the rounds and EncryptBlock as compositions. -/
def Obligations.RoundsComposeTheTransforms : Prop :=
  (∀ s key : Block, rndf s key = arkf (mixf (shrf (subf s))) key ∧ frndf s key = arkf (shrf (subf s)) key) ∧
  (∀ (p : Block) (E : ExpandedKey), encf p E =
    frndf (rndf (rndf (rndf (rndf (rndf (rndf (rndf (rndf (rndf (arkf p (E 0)) (E 1)) (E 2)) (E 3)) (E 4)) (E 5)) (E 6)) (E 7))
      (E 8)) (E 9)) (E 10))

/-- 10_state.md R23, 43_transfer.md R124: byte `j` of the expanded key is byte `j mod 16` of round key `j div 16`, and slicing the 176
bytes gives the round keys back. -/
def Obligations.ExpandedKeyIsTheRoundKeysInOrder : Prop :=
  ∀ E : ExpandedKey,
    (∀ (k : Fin 11) (i : Fin 16), expandedByte E ⟨16 * k.val + i.val, by omega⟩ = (E k)[i]) ∧
    sliceKey (List.ofFn (expandedByte E)) = E

/-! ### The block driver -/

/-- 44_block_driver.md R140, R141: from its start the sequencer takes the 40 steps of the table in their order, each with its position and
its STATE, then stops with STATE = ENCf(p, E). -/
def Obligations.SequencerRunsTheSchedule : Prop :=
  schedule.length = 40 ∧
  ∀ (E : ExpandedKey) (p : Block) (s : State),
    (∀ n : Nat, n ≤ 40 →
      (seqRun E n (seqStart p s)).seq = schedule[n]? ∧
      (seqRun E n (seqStart p s)).stateReg = some (scheduleResult E (schedule.take n) p)) ∧
    seqRun E 40 (seqStart p s) =
      { s with
        stateReg := some (encf p E)
        seq := none
        trace := s.trace ++ onTracePort (scheduleEvents E schedule p) }

/-- 44_block_driver.md R145: the known-answer vector. -/
def Obligations.KnownAnswerVector : Prop :=
  ∀ s : State, (∀ k : Fin 11, s.rk[k] = some (v1Keys k)) → s.din = 0x00112233445566778899aabbccddeeff →
    ∃ t, exec (.encb 16) s = .next t ∧ t.responses = s.responses ++ [⟨.ok, 0x69c4e0d86a7b0430d8cdb78070b4c55a⟩]

/-- 44_block_driver.md R146: ENCB leaves the STATE and returns the word that the twelve stepped commands do. On the trace port they differ in
their tags alone. -/
def Obligations.EncbEqualsTheSteppedSequence : Prop :=
  ∀ (s : State) (w : BusWord), s.rst = false → kall s = true →
    ∃ t u, steps 1 { s with inputs := [.command (encode (.encb 16)) w] } = .next t ∧
      steps 12 { s with inputs := steppedCommands w } = .next u ∧
      t.stateReg = u.stateReg ∧ stv t = true ∧ stv u = true ∧
      t.rk = u.rk ∧ t.err = u.err ∧ t.lastRsp = u.lastRsp ∧ t.trace.map TraceEvent.data = u.trace.map TraceEvent.data ∧
      t.responses.length = s.responses.length + 1 ∧ u.responses.length = s.responses.length + 12 ∧
      t.responses.getLast? = u.responses.getLast?

/-- 44_block_driver.md R143, R147: the result of ENCB depends on the first n bytes of din, on n and on RK alone, and two messages of equal padded
length that share block k have the same output block k. -/
def Obligations.EncbDependsOnItsBlockAlone : Prop :=
  (∀ (x : Block) (n : Nat) (i : Fin 16), (pad x n)[i] = if i.val < n then x[i] else 0) ∧
  (∀ (P P' : List Byte) (key : Block) (k : Nat), paddedLength P.length = paddedLength P'.length → k < blockCount P →
    window (paddedMessage P) k = window (paddedMessage P') k → window (ecbf P key) k = window (ecbf P' key) k) ∧
  ∀ (n : BitVec 5) (s s' : State), 1 ≤ n.toNat → n.toNat ≤ 16 → kall s = true → s'.rk = s.rk →
    (∀ i : Fin 16, i.val < n.toNat → (bytes s'.din)[i] = (bytes s.din)[i]) →
    ∃ (t t' : State) (dout : BusWord), exec (.encb n) s = .next t ∧ exec (.encb n) s' = .next t' ∧
      t.responses = s.responses ++ [⟨.ok, dout⟩] ∧ t'.responses = s'.responses ++ [⟨.ok, dout⟩] ∧ t'.stateReg = t.stateReg

/-! ### The message procedure -/

/-- 45_message_driver.md R161: the smallest multiple of 16 that is at least L, with the rule's values. -/
def Obligations.PaddedLengthIsTheSmallestMultiple : Prop :=
  (∀ len : Nat, 16 ∣ paddedLength len ∧ len ≤ paddedLength len ∧ ∀ m : Nat, 16 ∣ m → len ≤ m → paddedLength len ≤ m) ∧
  paddedLength 0 = 0 ∧ paddedLength 1 = 16 ∧ paddedLength 16 = 16 ∧ paddedLength 17 = 32 ∧
  ∀ key : Block, ecbf [] key = []

/-- 45_message_driver.md R163: the ciphertext has the padded length. -/
def Obligations.CiphertextHasThePaddedLength : Prop :=
  ∀ (P : List Byte) (key : Block),
    (ecbf P key).length = paddedLength P.length ∧ (ecbf P key).length % 16 = 0 ∧ P.length ≤ (ecbf P key).length ∧
    ((ecbf P key).length = P.length ↔ 16 ∣ P.length)

/-- 45_message_driver.md R160, R162: the host's commands, run on the core from any state that is ready with nothing else to do, compute
ECBf, whatever the filler bytes of the last block are. -/
def Obligations.CoreComputesEcb : Prop :=
  ∀ (key P : List Byte) (filler : Nat → Byte) (s : State), key.length = 16 → s.rst = false → s.inputs = [] →
    (encryptMessage key P filler none s).1 = some (ecbf P (window key 0))

/-- 45_message_driver.md R166, R169, 43_transfer.md R126, on one core and on several: a key of another length issues no command; a cancelled
message, a message with a response that is not OK, one with a block that got no response, and one whose keys are not all
loaded give no ciphertext; and a ciphertext that is given has its whole length, whatever state the cores were in. The empty
message has no block to cancel: it issues no command and its ciphertext is empty, cancelled or not, and a message cancelled
after its last block gives none; both are the model's choice (log entry 13). On several
cores the failed block may stand anywhere in the schedule. -/
def Obligations.NoPartialCiphertext : Prop :=
  (∀ (key P : List Byte) (filler : Nat → Byte) (c : Option Nat) (s : State), key.length ≠ 16 →
    encryptMessage key P filler c s = (none, s)) ∧
  (∀ (key P : List Byte) (filler : Nat → Byte) (m : Nat) (s : State), P ≠ [] →
    (encryptMessage key P filler (some m) s).1 = none) ∧
  (∀ (P : List Byte) (filler : Nat → Byte) (c : Option Nat) (s : State), kall s = false →
    runBlocks P filler c s = (none, s)) ∧
  (∀ (P : List Byte) (filler : Nat → Byte) (c : Option Nat) (s : State),
    ((newResponses s (drive (blockCommands P filler) s)).length < blockCount P ∨
      ∃ r ∈ newResponses s (drive (blockCommands P filler) s), r.rsp ≠ .ok) →
    (runBlocks P filler c s).1 = none) ∧
  (∀ (key P C : List Byte) (filler : Nat → Byte) (c : Option Nat) (s : State),
    (encryptMessage key P filler c s).1 = some C → C.length = paddedLength P.length) ∧
  (∀ (n : Nat) (schedule : List (Nat × Fin n)) (key P : List Byte) (filler : Nat → Byte) (c : Option Nat) (sys : System n),
    (key.length ≠ 16 → encryptParallel schedule key P filler c sys = (none, sys)) ∧
    (P ≠ [] → c ≠ none → (encryptParallel schedule key P filler c sys).1 = none) ∧
    (P ≠ [] → ∀ i : Fin n, kall (drive (ldkeyCommands (Config.keySchedule (window key 0))) sys[i]) = false →
      (encryptParallel schedule key P filler c sys).1 = none) ∧
    (∀ C, (encryptParallel schedule key P filler c sys).1 = some C → C.length = paddedLength P.length)) ∧
  (∀ (n : Nat) (i : Fin n) (j : Nat) (rest : List (Nat × Fin n)) (P : List Byte) (filler : Nat → Byte) (sys : System n),
    (newResponses sys[i] (drive [blockCommand P filler j] sys[i]) = [] ∨
      ∃ r ∈ newResponses sys[i] (drive [blockCommand P filler j] sys[i]), r.rsp ≠ .ok) →
    (runBlocksOn P filler ((j, i) :: rest) sys).1 = none) ∧
  (∀ (n : Nat) (i : Fin n) (j : Nat) (pre rest : List (Nat × Fin n)) (key P : List Byte) (filler : Nat → Byte) (c : Option Nat)
    (sys after : System n), P ≠ [] →
    after = (runBlocksOn P filler pre (loadAll (Config.keySchedule (window key 0)) sys)).2 →
    (newResponses after[i] (drive [blockCommand P filler j] after[i]) = [] ∨
      ∃ r ∈ newResponses after[i] (drive [blockCommand P filler j] after[i]), r.rsp ≠ .ok) →
    (encryptParallel (pre ++ (j, i) :: rest) key P filler c sys).1 = none) ∧
  (∀ (key : List Byte) (filler : Nat → Byte) (c : Option Nat), key.length = 16 →
    (∀ s : State, encryptMessage key [] filler c s = (some [], s)) ∧
    ∀ (n : Nat) (schedule : List (Nat × Fin n)) (sys : System n),
      encryptParallel schedule key [] filler c sys = (some [], sys))

/-- 45_message_driver.md R165, 44_block_driver.md R147: trailing zero bytes up to the padded length change nothing, a message of whole blocks
gets no extra block, and equal blocks, of one message or of two, give equal ciphertext blocks. -/
def Obligations.KnownWeaknessesAreKept : Prop :=
  (∀ (P : List Byte) (n : Nat) (key : Block), P.length + n ≤ paddedLength P.length →
    ecbf (P ++ List.replicate n 0) key = ecbf P key) ∧
  (∀ (P : List Byte) (key : Block), 16 ∣ P.length → (ecbf P key).length = P.length) ∧
  (∀ (P P' : List Byte) (key : Block) (i j : Nat), i < blockCount P → j < blockCount P' →
    window (paddedMessage P) i = window (paddedMessage P') j → window (ecbf P key) i = window (ecbf P' key) j)

/-- 45_message_driver.md R167: a message spread over any number of cores gives the same ciphertext, in whatever order the host issues the blocks
and whichever core runs each, as long as each block is issued once. The key schedule is left open (log entry 10). -/
def Obligations.ParallelBlocksComputeEcb : Prop :=
  ∀ (n : Nat) (schedule : List (Nat × Fin n)) (key P : List Byte) (filler : Nat → Byte) (sys : System n), key.length = 16 →
    (∀ i : Fin n, sys[i].rst = false ∧ sys[i].inputs = []) →
    (schedule.map Prod.fst).Perm (List.range (blockCount P)) →
    (encryptParallel schedule key P filler none sys).1 = some (ecbf P (window key 0))

/-- 60_exceptions.md R197: a step of one instance leaves the others alone, and steps of two instances may be taken in either order. That both
orders end in one and the same system, their UNSPEC words and the lengths of abandoned traces included, says of those only
that both orders have one draw (the model's choice, log entry 2). -/
def Obligations.InstancesAreIndependent : Prop :=
  ∀ (n : Nat) (i j : Fin n) (sys : System n), i ≠ j →
    ∃ a b ab : System n, systemStep i sys = .next a ∧ systemStep j sys = .next b ∧ a[j] = sys[j] ∧ b[i] = sys[i] ∧
      systemStep j a = .next ab ∧ systemStep i b = .next ab

/-- 30_encoding.md R70: the pseudo-instructions expand to the commands the rule lists. That `ecb` fills its last word with zero bytes, takes a hex
string, and may stand without an operand for the empty message is the model's choice (log entry 14). -/
def Obligations.PseudoInstructionsExpand : Prop :=
  (∀ E : ExpandedKey, ldkeyCommands E =
    [.command 0x0003 (word (E 0)), .command 0x0013 (word (E 1)), .command 0x0023 (word (E 2)), .command 0x0033 (word (E 3)),
     .command 0x0043 (word (E 4)), .command 0x0053 (word (E 5)), .command 0x0063 (word (E 6)), .command 0x0073 (word (E 7)),
     .command 0x0083 (word (E 8)), .command 0x0093 (word (E 9)), .command 0x00A3 (word (E 10))]) ∧
  (∀ (e : List Char) (bs : List Byte), e.length = 352 → parseBytes e = some bs →
    assembleOp ['l', 'd', 'k', 'e', 'y'] [e] = some (ldkeyCommands (sliceKey bs))) ∧
  (∀ w : List Char, assembleOp ['e', 'n', 'c', 'b', 'l', 'k'] [w] = assembleOp ['e', 'n', 'c', 'b'] [['1', '6'], w]) ∧
  (∀ k : List Char, assembleOp ['r', 'o', 'u', 'n', 'd'] [k] = assembleOp ['r', 'n', 'd'] [k] ∧
    assembleOp ['f', 'i', 'n', 'a', 'l'] [k] = assembleOp ['f', 'r', 'n', 'd'] [k]) ∧
  (∀ (p : List Char) (bs : List Byte), parseBytes p = some bs →
    assembleOp ['e', 'c', 'b'] [p] = some (blockCommands bs fun _ => 0)) ∧
  assembleOp ['e', 'c', 'b'] [] = some []
end

