-- ==== Sys2Proof/Laws/Decode.lean ====
section
/-!
SUPPORT. The fields of an encoded word are the fields put in, and a word is its fields.
-/

namespace Sys2Proof

@[simp] theorem opField_packWord (nb : BitVec 5) (rsel op : BitVec 4) : opField (packWord nb rsel op) = op := by
  unfold opField packWord
  simp (disch := omega) only [BitVec.extractLsb'_append_eq_of_add_le]
  exact BitVec.extractLsb'_eq_self

@[simp] theorem rselField_packWord (nb : BitVec 5) (rsel op : BitVec 4) : rselField (packWord nb rsel op) = rsel := by
  unfold rselField packWord
  simp (disch := omega) only [BitVec.extractLsb'_append_eq_of_add_le, BitVec.extractLsb'_append_eq_of_le]
  exact BitVec.extractLsb'_eq_self

@[simp] theorem nbField_packWord (nb : BitVec 5) (rsel op : BitVec 4) : nbField (packWord nb rsel op) = nb := by
  unfold nbField packWord
  simp (disch := omega) only [BitVec.extractLsb'_append_eq_of_add_le, BitVec.extractLsb'_append_eq_of_le]
  exact BitVec.extractLsb'_eq_self

@[simp] theorem rsvField_packWord (nb : BitVec 5) (rsel op : BitVec 4) : rsvField (packWord nb rsel op) = 0 := by
  unfold rsvField packWord
  simp (disch := omega) only [BitVec.extractLsb'_append_eq_of_le]
  exact BitVec.extractLsb'_eq_self

@[simp] theorem opField_packReserved (rest : BitVec 12) (op : BitVec 4) : opField (packReserved rest op) = op := by
  unfold opField packReserved
  simp (disch := omega) only [BitVec.extractLsb'_append_eq_of_add_le]
  exact BitVec.extractLsb'_eq_self

@[simp] theorem restField_packReserved (rest : BitVec 12) (op : BitVec 4) : restField (packReserved rest op) = rest := by
  unfold restField packReserved
  simp (disch := omega) only [BitVec.extractLsb'_append_eq_of_le]
  exact BitVec.extractLsb'_eq_self

/-- A word whose RSV is 0 is packed from its fields. -/
theorem packWord_fields {w : CmdWord} (h : rsvField w = 0) : packWord (nbField w) (rselField w) (opField w) = w := by
  have h' : (0 : BitVec 3) = w.extractLsb' 13 3 := h.symm
  unfold packWord nbField rselField opField
  rw [show (0#3) = w.extractLsb' 13 3 from h']
  apply BitVec.eq_of_getLsbD_eq
  intro j hj
  simp only [BitVec.getLsbD_append, BitVec.getLsbD_extractLsb']
  by_cases h1 : j < 4
  · simp [h1]
  · by_cases h2 : j < 8
    · have : 4 + (j - 4) = j := by omega
      have h3 : j - 4 < 4 := by omega
      simp [h1, h3, this]
    · by_cases h4 : j < 13
      · have : 8 + (j - 4 - 4) = j := by omega
        have h3 : ¬ j - 4 < 4 := by omega
        have h5 : j - 4 - 4 < 5 := by omega
        simp [h1, h3, h5, this]
      · have : 13 + (j - 4 - 4 - 5) = j := by omega
        have h3 : ¬ j - 4 < 4 := by omega
        have h5 : ¬ j - 4 - 4 < 5 := by omega
        have h6 : j - 4 - 4 - 5 < 3 := by omega
        simp [h1, h3, h5, h6, this]

theorem packReserved_fields (w : CmdWord) : packReserved (restField w) (opField w) = w := by
  unfold packReserved restField opField
  apply BitVec.eq_of_getLsbD_eq
  intro j hj
  simp only [BitVec.getLsbD_append, BitVec.getLsbD_extractLsb']
  by_cases h1 : j < 4
  · simp [h1]
  · have : 4 + (j - 4) = j := by omega
    have h3 : j - 4 < 12 := by omega
    simp [h1, h3, this]

/-- Both answers of the plain shape. -/
theorem decodePlain_cases (w : CmdWord) (i : Instr) :
    (decodePlain w i = .ok i ∧ rsvField w = 0 ∧ rselField w = 0 ∧ nbField w = 0) ∨
    ((∃ e, decodePlain w i = .error e) ∧ (rsvField w ≠ 0 ∨ rselField w ≠ 0 ∨ nbField w ≠ 0)) := by
  unfold decodePlain
  split_ifs <;> simp_all

/-- Both answers of the keyed shape. -/
theorem decodeKeyed_cases (w : CmdWord) (mk : BitVec 4 → Instr) :
    (decodeKeyed w mk = .ok (mk (rselField w)) ∧ rsvField w = 0 ∧ (rselField w).toNat ≤ 10 ∧ nbField w = 0) ∨
    ((∃ e, decodeKeyed w mk = .error e) ∧ (rsvField w ≠ 0 ∨ 10 < (rselField w).toNat ∨ nbField w ≠ 0)) := by
  unfold decodeKeyed
  split_ifs <;> simp_all

/-- Both answers of the counted shape. -/
theorem decodeCounted_cases (w : CmdWord) (mk : BitVec 5 → Instr) :
    (decodeCounted w mk = .ok (mk (nbField w)) ∧ rsvField w = 0 ∧ rselField w = 0 ∧
      1 ≤ (nbField w).toNat ∧ (nbField w).toNat ≤ 16) ∨
    ((∃ e, decodeCounted w mk = .error e) ∧
      (rsvField w ≠ 0 ∨ rselField w ≠ 0 ∨ ¬(1 ≤ (nbField w).toNat ∧ (nbField w).toNat ≤ 16))) := by
  unfold decodeCounted
  split_ifs with h1 h2 h3
  · exact .inr ⟨⟨_, rfl⟩, .inl h1⟩
  · exact .inr ⟨⟨_, rfl⟩, .inr (.inl h2)⟩
  · exact .inr ⟨⟨_, rfl⟩, .inr (.inr (by omega))⟩
  · exact .inl ⟨rfl, by simpa using h1, by simpa using h2, by omega, by omega⟩

theorem decodePlain_packWord (op : BitVec 4) (i : Instr) : decodePlain (packWord 0 0 op) i = .ok i := by
  simp only [decodePlain, rsvField_packWord, rselField_packWord, nbField_packWord, ne_eq, not_true, if_false]

theorem decodeKeyed_packWord {k : BitVec 4} (op : BitVec 4) (mk : BitVec 4 → Instr) (h : k.toNat ≤ 10) :
    decodeKeyed (packWord 0 k op) mk = .ok (mk k) := by
  have h' : ¬ 10 < k.toNat := by omega
  simp only [decodeKeyed, rsvField_packWord, rselField_packWord, nbField_packWord, ne_eq, not_true, h', if_false]

theorem decodeCounted_packWord {n : BitVec 5} (op : BitVec 4) (mk : BitVec 5 → Instr) (h : 1 ≤ n.toNat ∧ n.toNat ≤ 16) :
    decodeCounted (packWord n 0 op) mk = .ok (mk n) := by
  have h' : ¬(n.toNat < 1 ∨ 16 < n.toNat) := by omega
  simp only [decodeCounted, rsvField_packWord, rselField_packWord, nbField_packWord, ne_eq, not_true, h', if_false]

/-- A word's opcode is one of sixteen. -/
theorem opField_cases (w : CmdWord) :
    opField w = 0x0 ∨ opField w = 0x1 ∨ opField w = 0x2 ∨ opField w = 0x3 ∨ opField w = 0x4 ∨ opField w = 0x5 ∨
    opField w = 0x6 ∨ opField w = 0x7 ∨ opField w = 0x8 ∨ opField w = 0x9 ∨ opField w = 0xA ∨ opField w = 0xB ∨
    opField w = 0xC ∨ opField w = 0xD ∨ opField w = 0xE ∨ opField w = 0xF := by
  generalize opField w = op
  revert op
  decide

end Sys2Proof
end

