-- ==== Sys2Proof/Laws/State.lean ====
section
/-!
SUPPORT. One lemma per field per update of the state, so that no later proof unfolds a record update.
-/

namespace Sys2Proof.Machine

/-! ### writeState -/

@[simp] theorem writeState_stateReg (x : Block) (s : State) :
    (writeState x s).stateReg = some x := rfl
@[simp] theorem writeState_rk (x : Block) (s : State) :
    (writeState x s).rk = s.rk := rfl
@[simp] theorem writeState_err (x : Block) (s : State) :
    (writeState x s).err = s.err := rfl
@[simp] theorem writeState_lastRsp (x : Block) (s : State) :
    (writeState x s).lastRsp = s.lastRsp := rfl
@[simp] theorem writeState_seq (x : Block) (s : State) :
    (writeState x s).seq = s.seq := rfl
@[simp] theorem writeState_rst (x : Block) (s : State) :
    (writeState x s).rst = s.rst := rfl
@[simp] theorem writeState_inputs (x : Block) (s : State) :
    (writeState x s).inputs = s.inputs := rfl
@[simp] theorem writeState_din (x : Block) (s : State) :
    (writeState x s).din = s.din := rfl
@[simp] theorem writeState_responses (x : Block) (s : State) :
    (writeState x s).responses = s.responses := rfl
@[simp] theorem writeState_trace (x : Block) (s : State) :
    (writeState x s).trace = s.trace := rfl
@[simp] theorem writeState_draws (x : Block) (s : State) :
    (writeState x s).draws = s.draws := rfl

/-! ### writeKey -/

@[simp] theorem writeKey_stateReg (k : Fin 11) (x : Block) (s : State) :
    (writeKey k x s).stateReg = s.stateReg := rfl
@[simp] theorem writeKey_rk (k : Fin 11) (x : Block) (s : State) :
    (writeKey k x s).rk = s.rk.set k (some x) := rfl
@[simp] theorem writeKey_err (k : Fin 11) (x : Block) (s : State) :
    (writeKey k x s).err = s.err := rfl
@[simp] theorem writeKey_lastRsp (k : Fin 11) (x : Block) (s : State) :
    (writeKey k x s).lastRsp = s.lastRsp := rfl
@[simp] theorem writeKey_seq (k : Fin 11) (x : Block) (s : State) :
    (writeKey k x s).seq = s.seq := rfl
@[simp] theorem writeKey_rst (k : Fin 11) (x : Block) (s : State) :
    (writeKey k x s).rst = s.rst := rfl
@[simp] theorem writeKey_inputs (k : Fin 11) (x : Block) (s : State) :
    (writeKey k x s).inputs = s.inputs := rfl
@[simp] theorem writeKey_din (k : Fin 11) (x : Block) (s : State) :
    (writeKey k x s).din = s.din := rfl
@[simp] theorem writeKey_responses (k : Fin 11) (x : Block) (s : State) :
    (writeKey k x s).responses = s.responses := rfl
@[simp] theorem writeKey_trace (k : Fin 11) (x : Block) (s : State) :
    (writeKey k x s).trace = s.trace := rfl
@[simp] theorem writeKey_draws (k : Fin 11) (x : Block) (s : State) :
    (writeKey k x s).draws = s.draws := rfl

/-! ### respondData -/

@[simp] theorem respondData_stateReg (x : Block) (s : State) :
    (respondData x s).stateReg = s.stateReg := rfl
@[simp] theorem respondData_rk (x : Block) (s : State) :
    (respondData x s).rk = s.rk := rfl
@[simp] theorem respondData_err (x : Block) (s : State) :
    (respondData x s).err = s.err := rfl
@[simp] theorem respondData_lastRsp (x : Block) (s : State) :
    (respondData x s).lastRsp = .ok := rfl
@[simp] theorem respondData_seq (x : Block) (s : State) :
    (respondData x s).seq = s.seq := rfl
@[simp] theorem respondData_rst (x : Block) (s : State) :
    (respondData x s).rst = s.rst := rfl
@[simp] theorem respondData_inputs (x : Block) (s : State) :
    (respondData x s).inputs = s.inputs := rfl
@[simp] theorem respondData_din (x : Block) (s : State) :
    (respondData x s).din = s.din := rfl
@[simp] theorem respondData_responses (x : Block) (s : State) :
    (respondData x s).responses = s.responses ++ [⟨.ok, word x⟩] := rfl
@[simp] theorem respondData_trace (x : Block) (s : State) :
    (respondData x s).trace = s.trace := rfl
@[simp] theorem respondData_draws (x : Block) (s : State) :
    (respondData x s).draws = s.draws := rfl

/-! ### respondUnspec -/

@[simp] theorem respondUnspec_stateReg (s : State) :
    (respondUnspec s).stateReg = s.stateReg := rfl
@[simp] theorem respondUnspec_rk (s : State) :
    (respondUnspec s).rk = s.rk := rfl
@[simp] theorem respondUnspec_err (s : State) :
    (respondUnspec s).err = s.err := rfl
@[simp] theorem respondUnspec_lastRsp (s : State) :
    (respondUnspec s).lastRsp = .ok := rfl
@[simp] theorem respondUnspec_seq (s : State) :
    (respondUnspec s).seq = s.seq := rfl
@[simp] theorem respondUnspec_rst (s : State) :
    (respondUnspec s).rst = s.rst := rfl
@[simp] theorem respondUnspec_inputs (s : State) :
    (respondUnspec s).inputs = s.inputs := rfl
@[simp] theorem respondUnspec_din (s : State) :
    (respondUnspec s).din = s.din := rfl
@[simp] theorem respondUnspec_responses (s : State) :
    (respondUnspec s).responses = s.responses ++ [⟨.ok, Config.freeDout s.draws⟩] := rfl
@[simp] theorem respondUnspec_trace (s : State) :
    (respondUnspec s).trace = s.trace := rfl
@[simp] theorem respondUnspec_draws (s : State) :
    (respondUnspec s).draws = s.draws + 1 := rfl

/-! ### takeError -/

@[simp] theorem takeError_stateReg (e : Rsp) (s : State) :
    (takeError e s).stateReg = s.stateReg := rfl
@[simp] theorem takeError_rk (e : Rsp) (s : State) :
    (takeError e s).rk = s.rk := rfl
@[simp] theorem takeError_err (e : Rsp) (s : State) :
    (takeError e s).err = latchError s.err e := rfl
@[simp] theorem takeError_lastRsp (e : Rsp) (s : State) :
    (takeError e s).lastRsp = e := rfl
@[simp] theorem takeError_seq (e : Rsp) (s : State) :
    (takeError e s).seq = s.seq := rfl
@[simp] theorem takeError_rst (e : Rsp) (s : State) :
    (takeError e s).rst = s.rst := rfl
@[simp] theorem takeError_inputs (e : Rsp) (s : State) :
    (takeError e s).inputs = s.inputs := rfl
@[simp] theorem takeError_din (e : Rsp) (s : State) :
    (takeError e s).din = s.din := rfl
@[simp] theorem takeError_responses (e : Rsp) (s : State) :
    (takeError e s).responses = s.responses ++ [⟨e, Config.freeDout s.draws⟩] := rfl
@[simp] theorem takeError_trace (e : Rsp) (s : State) :
    (takeError e s).trace = s.trace := rfl
@[simp] theorem takeError_draws (e : Rsp) (s : State) :
    (takeError e s).draws = s.draws + 1 := rfl

/-! ### emit -/

@[simp] theorem emit_stateReg (tag : BitVec 8) (v : Block) (s : State) :
    (emit tag v s).stateReg = s.stateReg := rfl
@[simp] theorem emit_rk (tag : BitVec 8) (v : Block) (s : State) :
    (emit tag v s).rk = s.rk := rfl
@[simp] theorem emit_err (tag : BitVec 8) (v : Block) (s : State) :
    (emit tag v s).err = s.err := rfl
@[simp] theorem emit_lastRsp (tag : BitVec 8) (v : Block) (s : State) :
    (emit tag v s).lastRsp = s.lastRsp := rfl
@[simp] theorem emit_seq (tag : BitVec 8) (v : Block) (s : State) :
    (emit tag v s).seq = s.seq := rfl
@[simp] theorem emit_rst (tag : BitVec 8) (v : Block) (s : State) :
    (emit tag v s).rst = s.rst := rfl
@[simp] theorem emit_inputs (tag : BitVec 8) (v : Block) (s : State) :
    (emit tag v s).inputs = s.inputs := rfl
@[simp] theorem emit_din (tag : BitVec 8) (v : Block) (s : State) :
    (emit tag v s).din = s.din := rfl
@[simp] theorem emit_responses (tag : BitVec 8) (v : Block) (s : State) :
    (emit tag v s).responses = s.responses := rfl
@[simp] theorem emit_trace (tag : BitVec 8) (v : Block) (s : State) :
    (emit tag v s).trace = s.trace ++ traceEvents tag v := rfl
@[simp] theorem emit_draws (tag : BitVec 8) (v : Block) (s : State) :
    (emit tag v s).draws = s.draws := rfl

/-! ### seqStart -/

@[simp] theorem seqStart_stateReg (p : Block) (s : State) :
    (seqStart p s).stateReg = some p := rfl
@[simp] theorem seqStart_rk (p : Block) (s : State) :
    (seqStart p s).rk = s.rk := rfl
@[simp] theorem seqStart_err (p : Block) (s : State) :
    (seqStart p s).err = s.err := rfl
@[simp] theorem seqStart_lastRsp (p : Block) (s : State) :
    (seqStart p s).lastRsp = s.lastRsp := rfl
@[simp] theorem seqStart_seq (p : Block) (s : State) :
    (seqStart p s).seq = some ⟨0, .ark⟩ := rfl
@[simp] theorem seqStart_rst (p : Block) (s : State) :
    (seqStart p s).rst = s.rst := rfl
@[simp] theorem seqStart_inputs (p : Block) (s : State) :
    (seqStart p s).inputs = s.inputs := rfl
@[simp] theorem seqStart_din (p : Block) (s : State) :
    (seqStart p s).din = s.din := rfl
@[simp] theorem seqStart_responses (p : Block) (s : State) :
    (seqStart p s).responses = s.responses := rfl
@[simp] theorem seqStart_trace (p : Block) (s : State) :
    (seqStart p s).trace = s.trace := rfl
@[simp] theorem seqStart_draws (p : Block) (s : State) :
    (seqStart p s).draws = s.draws := rfl

/-! ### enterReset -/

@[simp] theorem enterReset_stateReg (s : State) :
    (enterReset s).stateReg = none := rfl
@[simp] theorem enterReset_rk (s : State) :
    (enterReset s).rk = Vector.replicate 11 none := rfl
@[simp] theorem enterReset_err (s : State) :
    (enterReset s).err = .ok := rfl
@[simp] theorem enterReset_lastRsp (s : State) :
    (enterReset s).lastRsp = .ok := rfl
@[simp] theorem enterReset_seq (s : State) :
    (enterReset s).seq = none := rfl
@[simp] theorem enterReset_rst (s : State) :
    (enterReset s).rst = true := rfl
@[simp] theorem enterReset_inputs (s : State) :
    (enterReset s).inputs = s.inputs := rfl
@[simp] theorem enterReset_din (s : State) :
    (enterReset s).din = s.din := rfl
@[simp] theorem enterReset_responses (s : State) :
    (enterReset s).responses = s.responses := rfl
@[simp] theorem enterReset_trace (s : State) :
    (enterReset s).trace = s.trace := rfl
@[simp] theorem enterReset_draws (s : State) :
    (enterReset s).draws = s.draws := rfl

/-! ### leaveReset -/

@[simp] theorem leaveReset_stateReg (s : State) :
    (leaveReset s).stateReg = s.stateReg := rfl
@[simp] theorem leaveReset_rk (s : State) :
    (leaveReset s).rk = s.rk := rfl
@[simp] theorem leaveReset_err (s : State) :
    (leaveReset s).err = s.err := rfl
@[simp] theorem leaveReset_lastRsp (s : State) :
    (leaveReset s).lastRsp = s.lastRsp := rfl
@[simp] theorem leaveReset_seq (s : State) :
    (leaveReset s).seq = s.seq := rfl
@[simp] theorem leaveReset_rst (s : State) :
    (leaveReset s).rst = false := rfl
@[simp] theorem leaveReset_inputs (s : State) :
    (leaveReset s).inputs = s.inputs := rfl
@[simp] theorem leaveReset_din (s : State) :
    (leaveReset s).din = s.din := rfl
@[simp] theorem leaveReset_responses (s : State) :
    (leaveReset s).responses = s.responses := rfl
@[simp] theorem leaveReset_trace (s : State) :
    (leaveReset s).trace = s.trace := rfl
@[simp] theorem leaveReset_draws (s : State) :
    (leaveReset s).draws = s.draws := rfl

/-! ### presentWord -/

@[simp] theorem presentWord_stateReg (w : CmdWord) (s : State) :
    (presentWord w s).stateReg = s.stateReg := rfl
@[simp] theorem presentWord_rk (w : CmdWord) (s : State) :
    (presentWord w s).rk = s.rk := rfl
@[simp] theorem presentWord_err (w : CmdWord) (s : State) :
    (presentWord w s).err = s.err := rfl
@[simp] theorem presentWord_lastRsp (w : CmdWord) (s : State) :
    (presentWord w s).lastRsp = s.lastRsp := rfl
@[simp] theorem presentWord_seq (w : CmdWord) (s : State) :
    (presentWord w s).seq = s.seq := rfl
@[simp] theorem presentWord_rst (w : CmdWord) (s : State) :
    (presentWord w s).rst = false := rfl
@[simp] theorem presentWord_inputs (w : CmdWord) (s : State) :
    (presentWord w s).inputs = .command w s.din :: s.inputs := rfl
@[simp] theorem presentWord_din (w : CmdWord) (s : State) :
    (presentWord w s).din = s.din := rfl
@[simp] theorem presentWord_responses (w : CmdWord) (s : State) :
    (presentWord w s).responses = s.responses := rfl
@[simp] theorem presentWord_trace (w : CmdWord) (s : State) :
    (presentWord w s).trace = s.trace := rfl
@[simp] theorem presentWord_draws (w : CmdWord) (s : State) :
    (presentWord w s).draws = s.draws := rfl

/-! ### State.reset -/

@[simp] theorem reset_stateReg : State.reset.stateReg = none := rfl
@[simp] theorem reset_rk : State.reset.rk = Vector.replicate 11 none := rfl
@[simp] theorem reset_err : State.reset.err = .ok := rfl
@[simp] theorem reset_lastRsp : State.reset.lastRsp = .ok := rfl
@[simp] theorem reset_seq : State.reset.seq = none := rfl
@[simp] theorem reset_rst : State.reset.rst = false := rfl
@[simp] theorem reset_inputs : State.reset.inputs = [] := rfl
@[simp] theorem reset_din : State.reset.din = 0 := rfl
@[simp] theorem reset_responses : State.reset.responses = [] := rfl
@[simp] theorem reset_trace : State.reset.trace = [] := rfl
@[simp] theorem reset_draws : State.reset.draws = 0 := rfl

end Sys2Proof.Machine
end

