-- ==== Sys2Proof/Laws/Ops.lean ====
section
/-!
SUPPORT. What each shared operation can do, said once: the operand checks, the responses, the sequencer and the choice of the host's
next event.
-/

namespace Sys2Proof.Machine

/-! ### Operands -/

theorem keyIndex_of_le {k : BitVec 4} {i : Fin 11} (h : i.val = k.toNat) : keyIndex k = some i := by
  have hk : k.toNat < 11 := h ▸ i.isLt
  simp only [keyIndex, hk, dite_true, Option.some.injEq]
  exact Fin.ext h.symm

theorem keyIndex_of_gt {k : BitVec 4} (h : 10 < k.toNat) : keyIndex k = none := by
  have hk : ¬ k.toNat < 11 := by omega
  simp [keyIndex, hk]

theorem keyIndex_eq_some {k : BitVec 4} {i : Fin 11} (h : keyIndex k = some i) : i.val = k.toNat := by
  unfold keyIndex at h
  split at h
  · cases h; rfl
  · cases h

theorem keyIndex_ofNat (i : Fin 11) : keyIndex (BitVec.ofNat 4 i.val) = some i :=
  keyIndex_of_le (by simp [BitVec.toNat_ofNat]; omega)

theorem keyOperand_of_gt {k : BitVec 4} (s : State) (h : 10 < k.toNat) : keyOperand k s = .error .badField := by
  simp [keyOperand, keyIndex_of_gt h]

theorem keyOperand_of_none {k : BitVec 4} {i : Fin 11} {s : State} (hi : i.val = k.toNat) (h : s.rk[i] = none) :
    keyOperand k s = .error .keyUninit := by
  simp only [keyOperand, keyIndex_of_le hi, h]

theorem keyOperand_of_some {k : BitVec 4} {i : Fin 11} {s : State} {key : Block} (hi : i.val = k.toNat)
    (h : s.rk[i] = some key) : keyOperand k s = .ok key := by
  simp only [keyOperand, keyIndex_of_le hi, h]

/-- Everything `keyOperand` can answer. -/
theorem keyOperand_cases (k : BitVec 4) (s : State) :
    (10 < k.toNat ∧ keyOperand k s = .error .badField) ∨
    (∃ i : Fin 11, i.val = k.toNat ∧ s.rk[i] = none ∧ keyOperand k s = .error .keyUninit) ∨
    ∃ (i : Fin 11) (key : Block), i.val = k.toNat ∧ s.rk[i] = some key ∧ keyOperand k s = .ok key := by
  by_cases hk : 10 < k.toNat
  · exact .inl ⟨hk, keyOperand_of_gt s hk⟩
  · let i : Fin 11 := ⟨k.toNat, by omega⟩
    rcases h : s.rk[i] with _ | key
    · exact .inr (.inl ⟨i, rfl, h, keyOperand_of_none rfl h⟩)
    · exact .inr (.inr ⟨i, key, rfl, h, keyOperand_of_some rfl h⟩)

theorem stateOperand_of_none {s : State} (h : s.stateReg = none) : stateOperand s = .error .stateUninit := by
  simp only [stateOperand, h]

theorem stateOperand_of_some {s : State} {x : Block} (h : s.stateReg = some x) : stateOperand s = .ok x := by
  simp only [stateOperand, h]

/-- Everything `stateOperand` can answer. -/
theorem stateOperand_cases (s : State) :
    (s.stateReg = none ∧ stateOperand s = .error .stateUninit) ∨
    ∃ x, s.stateReg = some x ∧ stateOperand s = .ok x := by
  rcases h : s.stateReg with _ | x
  · exact .inl ⟨rfl, stateOperand_of_none h⟩
  · exact .inr ⟨x, rfl, stateOperand_of_some h⟩

theorem kall_eq_true {s : State} : kall s = true ↔ ∀ k : Fin 11, kv s k = true := by
  simp [kall]

theorem allKeysOperand_of_not_kall {s : State} (h : kall s = false) : allKeysOperand s = .error .keyUninit := by
  have : ¬ ∀ k : Fin 11, kv s k = true := by simpa [kall] using h
  simp [allKeysOperand, this]

theorem allKeysOperand_of_loaded {s : State} {E : ExpandedKey} (h : ∀ k : Fin 11, s.rk[k] = some (E k)) :
    allKeysOperand s = .ok E := by
  have hk : ∀ k : Fin 11, kv s k = true := fun k => by simp only [kv, h k, Option.isSome_some]
  simp only [allKeysOperand, hk, implies_true, dite_true, Except.ok.injEq]
  funext k
  simp only [h k, Option.get_some]

/-- With KALL = 1 there is an expanded key that the RK file holds. -/
theorem exists_keys_of_kall {s : State} (h : kall s = true) : ∃ E : ExpandedKey, ∀ k : Fin 11, s.rk[k] = some (E k) := by
  have hk := kall_eq_true.mp h
  exact ⟨fun k => (s.rk[k]).get (hk k), fun k => (Option.some_get (hk k)).symm⟩

theorem blockOperand_of_mem {n : BitVec 5} (s : State) (h : 1 ≤ n.toNat ∧ n.toNat ≤ 16) :
    blockOperand n s = .ok (pad (bytes s.din) n.toNat) := by
  simp only [blockOperand, h, and_self, if_true]

theorem blockOperand_of_not_mem {n : BitVec 5} (s : State) (h : ¬ (1 ≤ n.toNat ∧ n.toNat ≤ 16)) :
    blockOperand n s = .error .badField := by
  simp only [blockOperand, h, if_false]

/-! ### Responses -/

theorem respondState_of_some {s : State} {x : Block} (h : s.stateReg = some x) : respondState s = respondData x s := by
  simp only [respondState, h]

theorem respondState_writeState (x : Block) (s : State) :
    respondState (writeState x s) = respondData x (writeState x s) := rfl

theorem latchError_of_ok (e : Rsp) : latchError .ok e = e := rfl

theorem latchError_of_ne {old : Rsp} (e : Rsp) (h : old ≠ .ok) : latchError old e = old := by
  simp only [latchError, h, if_false]

theorem finishElementary_eq (r : BitVec 4) (ph : Phase) (y : Block) (s : State) :
    finishElementary r ph y s =
      { s with
        stateReg := some y
        lastRsp := .ok
        responses := s.responses ++ [⟨.ok, word y⟩]
        trace := s.trace ++ traceEvents (traceTag r .standalone ph) y } := rfl

/-! ### The sequencer -/

theorem seqStep_of_running {E : ExpandedKey} {s : State} {q : SeqPos} {x : Block} (hq : s.seq = some q)
    (hx : s.stateReg = some x) :
    seqStep E s =
      { s with
        stateReg := some (seqTransform q E x)
        trace := s.trace ++ traceEvents (seqTag q) (seqTransform q E x)
        seq := seqNext q } := by
  simp only [seqStep, hq, hx, emit, writeState]

theorem seqRun_succ (E : ExpandedKey) (n : Nat) (s : State) : seqRun E (n + 1) s = seqRun E n (seqStep E s) := rfl

theorem seqRun_add (E : ExpandedKey) (m n : Nat) (s : State) : seqRun E (m + n) s = seqRun E n (seqRun E m s) := by
  induction m generalizing s with
  | zero => simp [seqRun]
  | succ m ih => rw [Nat.succ_add, seqRun_succ, ih, seqRun_succ]

/-- The position, STATE and the trace after one step of a block in progress. -/
def atStep (q : Option SeqPos) (x : Block) (tr : List TraceEvent) (s : State) : State :=
  { s with stateReg := some x, seq := q, trace := tr }

theorem seqStep_atStep (E : ExpandedKey) (q : SeqPos) (x : Block) (tr : List TraceEvent) (s : State) :
    seqStep E (atStep (some q) x tr s) =
      atStep (seqNext q) (seqTransform q E x) (tr ++ traceEvents (seqTag q) (seqTransform q E x)) s := rfl

theorem seqStart_eq_atStep (p : Block) (s : State) : seqStart p s = atStep (some ⟨0, .ark⟩) p s.trace s := rfl

/-! ### The host's events -/

theorem takeEvent_ready_nil : takeEvent false [] = none := rfl

theorem takeEvent_ready_cons (e : HostEvent) (es : List HostEvent) : takeEvent false (e :: es) = some (e, es) := rfl

theorem takeEvent_inReset (es : List HostEvent) : takeEvent true es = takeReset es := rfl

/-- During reset the core takes nothing but a change of `rst`. -/
theorem takeReset_isReset {es : List HostEvent} {e : HostEvent} {rest : List HostEvent} (h : takeReset es = some (e, rest)) :
    e = .assertReset ∨ e = .releaseReset := by
  induction es generalizing rest with
  | nil => simp [takeReset] at h
  | cons a as ih =>
    cases a with
    | assertReset => simp only [takeReset, Option.some.injEq, Prod.mk.injEq] at h; exact .inl h.1.symm
    | releaseReset => simp only [takeReset, Option.some.injEq, Prod.mk.injEq] at h; exact .inr h.1.symm
    | command w d =>
      simp only [takeReset, Option.map_eq_some_iff, Prod.mk.injEq] at h
      obtain ⟨⟨e', rest'⟩, h1, rfl, -⟩ := h
      exact ih h1
    | abandoned w d =>
      simp only [takeReset, Option.map_eq_some_iff, Prod.mk.injEq] at h
      obtain ⟨⟨e', rest'⟩, h1, rfl, -⟩ := h
      exact ih h1

theorem step_idle {s : State} (hr : s.rst = false) (hi : s.inputs = []) : step s = .next s := by
  simp only [step, hr, hi, takeEvent_ready_nil]

theorem step_event {s : State} {e : HostEvent} {es : List HostEvent} (hr : s.rst = false) (hi : s.inputs = e :: es) :
    step s = runEvent e { s with inputs := es } := by
  simp only [step, hr, hi, takeEvent_ready_cons]

end Sys2Proof.Machine
end

