-- ==== Sys2Proof/Laws/Sequencer.lean ====
section
/-!
SUPPORT. The sequencer, said once: from its start it runs the 40 steps of the schedule and stops, leaving STATE encrypted and one
trace event a step.
-/

namespace Sys2Proof.Machine

theorem onTracePort_nil : onTracePort [] = [] := by simp [onTracePort]

theorem traceEvents_append_onTracePort (tag : BitVec 8) (v : Block) (es : List TraceEvent) :
    traceEvents tag v ++ onTracePort es = onTracePort (⟨tag, word v⟩ :: es) := by
  by_cases h : Config.traceEn <;> simp [traceEvents, onTracePort, h]

/-- Each step's successor is the next one of the list, and the last has none. -/
def linked : List SeqPos → Bool
  | [] => true
  | q :: qs => seqNext q == qs.head? && linked qs

theorem schedule_linked : linked schedule = true := by decide

theorem schedule_length : schedule.length = seqLength := rfl

/-- Along a linked list of steps the sequencer runs each step once and stops. -/
theorem seqRun_linked (E : ExpandedKey) (qs : List SeqPos) (h : linked qs = true) (x : Block) (tr : List TraceEvent) (s : State) :
    seqRun E qs.length (atStep qs.head? x tr s) =
      atStep none (scheduleResult E qs x) (tr ++ onTracePort (scheduleEvents E qs x)) s := by
  induction qs generalizing x tr with
  | nil => simp [seqRun, scheduleResult, scheduleEvents, onTracePort_nil]
  | cons q qs ih =>
    simp only [linked, Bool.and_eq_true, beq_iff_eq] at h
    rw [List.length_cons, seqRun_succ, List.head?_cons, seqStep_atStep, h.1, ih h.2, List.append_assoc,
      traceEvents_append_onTracePort]
    rfl

theorem scheduleResult_schedule (E : ExpandedKey) (p : Block) : scheduleResult E schedule p = encf p E := rfl

/-- A whole block: the sequencer from its start, run for its full length. -/
theorem seqRun_block (E : ExpandedKey) (p : Block) (s : State) :
    seqRun E seqLength (seqStart p s) =
      { s with
        stateReg := some (encf p E)
        seq := none
        trace := s.trace ++ onTracePort (scheduleEvents E schedule p) } := by
  rw [seqStart_eq_atStep, ← schedule_length]
  exact (seqRun_linked E schedule schedule_linked p s.trace s).trans (by rw [scheduleResult_schedule]; rfl)

end Sys2Proof.Machine
end

