-- ==== Sys2Proof/Laws/Issue.lean ====
section
/-!
SUPPORT. Issuing a word, said once: a reserved opcode, a bad field, or the decoded command; and every way the decoded command
can end.
-/

namespace Sys2Proof.Machine

theorem issue_of_ok {w : CmdWord} {i : Instr} (h : decode w = .ok i) (d : BusWord) (s : State) :
    issue w d s = exec i { s with din := d } := by
  simp only [issue, h]

theorem issue_of_error {w : CmdWord} {e : DecodeError} (h : decode w = .error e) (d : BusWord) (s : State) :
    issue w d s = .next (takeError .badField { s with din := d }) := by
  cases e <;> simp only [issue, h, decodeErrorCode]

/-! ### The word's shape, by its opcode -/

theorem plain_shape {w : CmdWord} {op : BitVec 4} {i : Instr} (hop : opField w = op) (hd : decode w = decodePlain w i)
    (hk : usesKey w = false) (hc : usesCount w = false) (he : encode i = packWord 0 0 op) :
    (badFieldWord w = false ∧ decode w = .ok i ∧ encode i = w) ∨ (badFieldWord w = true ∧ ∃ e, decode w = .error e) := by
  rcases decodePlain_cases w i with ⟨h1, h2, h3, h4⟩ | ⟨⟨e, h1⟩, h2⟩
  · refine .inl ⟨by simp [badFieldWord, hk, hc, h2, h3, h4], hd.trans h1, ?_⟩
    have hp := packWord_fields h2
    rw [h3, h4, hop] at hp
    rw [he, hp]
  · exact .inr ⟨by simp only [badFieldWord, hk, hc]; rcases h2 with h2 | h2 | h2 <;> simp_all, e, hd.trans h1⟩

theorem keyed_shape {w : CmdWord} {op : BitVec 4} {mk : BitVec 4 → Instr} (hop : opField w = op)
    (hd : decode w = decodeKeyed w mk) (hk : usesKey w = true) (hc : usesCount w = false)
    (he : ∀ k, encode (mk k) = packWord 0 k op) :
    (badFieldWord w = false ∧ decode w = .ok (mk (rselField w)) ∧ encode (mk (rselField w)) = w ∧ (rselField w).toNat ≤ 10) ∨
    (badFieldWord w = true ∧ ∃ e, decode w = .error e) := by
  rcases decodeKeyed_cases w mk with ⟨h1, h2, h3, h4⟩ | ⟨⟨e, h1⟩, h2⟩
  · refine .inl ⟨by simp [badFieldWord, hk, hc, h2, h3, h4], hd.trans h1, ?_, h3⟩
    have hp := packWord_fields h2
    rw [h4, hop] at hp
    rw [he, hp]
  · exact .inr ⟨by simp only [badFieldWord, hk, hc]; rcases h2 with h2 | h2 | h2 <;> simp_all, e, hd.trans h1⟩

theorem counted_shape {w : CmdWord} {op : BitVec 4} {mk : BitVec 5 → Instr} (hop : opField w = op)
    (hd : decode w = decodeCounted w mk) (hk : usesKey w = false) (hc : usesCount w = true)
    (he : ∀ n, encode (mk n) = packWord n 0 op) :
    (badFieldWord w = false ∧ decode w = .ok (mk (nbField w)) ∧ encode (mk (nbField w)) = w ∧
      1 ≤ (nbField w).toNat ∧ (nbField w).toNat ≤ 16) ∨
    (badFieldWord w = true ∧ ∃ e, decode w = .error e) := by
  rcases decodeCounted_cases w mk with ⟨h1, h2, h3, h4⟩ | ⟨⟨e, h1⟩, h2⟩
  · refine .inl ⟨by simp [badFieldWord, hk, hc, h2, h3, h4], hd.trans h1, ?_, h4⟩
    have hp := packWord_fields h2
    rw [h3, hop] at hp
    rw [he, hp]
  · exact .inr ⟨by simp only [badFieldWord, hk, hc]; rcases h2 with h2 | h2 | h2 <;> simp_all, e, hd.trans h1⟩

/-- A reserved word is packed from its rest and its opcode. -/
theorem reserved_shape {w : CmdWord} {op : BitVec 4} (hop : opField w = op) : packReserved (restField w) op = w := by
  have h := packReserved_fields w
  rwa [hop] at h

/-! ### How a command can end -/

/-- The command ends in OK: LASTRSP is OK, ERR stays, and one response is added. -/
def endsOk (s t : State) : Prop :=
  t.lastRsp = .ok ∧ t.err = s.err ∧ t.rst = s.rst ∧ t.inputs = s.inputs ∧ t.din = s.din ∧
    (t.seq = s.seq ∨ t.seq = none) ∧ ∃ r : Response, r.rsp = .ok ∧ t.responses = s.responses ++ [r]

/-! What each command does when its checks pass, and when one fails. -/

theorem exec_rdst_of_some {s : State} {x : Block} (h : s.stateReg = some x) : exec .rdst s = .next (respondData x s) := by
  simp only [exec, execRdst, stateOperand_of_some h, respondState_of_some h]

theorem exec_ldrk_of_index {k : BitVec 4} {i : Fin 11} (h : keyIndex k = some i) (s : State) :
    exec (.ldrk k) s = .next (respondUnspec (writeKey i (bytes s.din) s)) := by
  simp only [exec, execLdrk, h]

theorem exec_ark_of_ok {k : BitVec 4} {s : State} {key x : Block} (hk : keyOperand k s = .ok key) (hx : stateOperand s = .ok x) :
    exec (.ark k) s = .next (finishElementary k .ark (arkf x key) s) := by
  simp only [exec, execArk, hk, hx]

theorem exec_sub_of_ok {s : State} {x : Block} (hx : stateOperand s = .ok x) :
    exec .sub s = .next (finishElementary 0 .sub (subf x) s) := by
  simp only [exec, execSub, hx]

theorem exec_shr_of_ok {s : State} {x : Block} (hx : stateOperand s = .ok x) :
    exec .shr s = .next (finishElementary 0 .shr (shrf x) s) := by
  simp only [exec, execShr, hx]

theorem exec_mix_of_ok {s : State} {x : Block} (hx : stateOperand s = .ok x) :
    exec .mix s = .next (finishElementary 0 .mix (mixf x) s) := by
  simp only [exec, execMix, hx]

theorem exec_rnd_of_ok {k : BitVec 4} {s : State} {key x : Block} (hk : keyOperand k s = .ok key) (hx : stateOperand s = .ok x) :
    exec (.rnd k) s = .next (respondData (rndf x key) (writeState (rndf x key) (emitRound k x key s))) := by
  simp only [exec, execRnd, hk, hx, respondState_writeState]

theorem exec_frnd_of_ok {k : BitVec 4} {s : State} {key x : Block} (hk : keyOperand k s = .ok key) (hx : stateOperand s = .ok x) :
    exec (.frnd k) s = .next (respondData (frndf x key) (writeState (frndf x key) (emitFinalRound k x key s))) := by
  simp only [exec, execFrnd, hk, hx, respondState_writeState]

theorem exec_encb_of_ok {n : BitVec 5} {s : State} {E : ExpandedKey} (hn : 1 ≤ n.toNat ∧ n.toNat ≤ 16)
    (hE : ∀ k : Fin 11, s.rk[k] = some (E k)) :
    exec (.encb n) s = .next
      { s with
        stateReg := some (encf (pad (bytes s.din) n.toNat) E)
        lastRsp := .ok
        seq := none
        responses := s.responses ++ [⟨.ok, word (encf (pad (bytes s.din) n.toNat) E)⟩]
        trace := s.trace ++ onTracePort (scheduleEvents E schedule (pad (bytes s.din) n.toNat)) } := by
  simp only [exec, execEncb, blockOperand_of_mem s hn, allKeysOperand_of_loaded hE, seqRun_block, respondState, respondData]

/-- Every command answers a next state: it ends in an error that changes nothing else, or it ends in OK. -/
theorem exec_cases (i : Instr) (s : State) :
    (∃ e, e ≠ .ok ∧ exec i s = .next (takeError e s)) ∨ ∃ t, exec i s = .next t ∧ endsOk s t := by
  cases i with
  | nop => exact .inr ⟨_, rfl, rfl, rfl, rfl, rfl, rfl, .inl rfl, _, rfl, rfl⟩
  | ldst => exact .inr ⟨_, rfl, rfl, rfl, rfl, rfl, rfl, .inl rfl, _, rfl, rfl⟩
  | rdst =>
    rcases stateOperand_cases s with ⟨-, h⟩ | ⟨x, hx, h⟩
    · exact .inl ⟨.stateUninit, by decide, by simp only [exec, execRdst, h]⟩
    · exact .inr ⟨_, exec_rdst_of_some hx, rfl, rfl, rfl, rfl, rfl, .inl rfl, _, rfl, rfl⟩
  | ldrk k =>
    rcases h : keyIndex k with _ | i
    · exact .inl ⟨.badField, by decide, by simp only [exec, execLdrk, h]⟩
    · exact .inr ⟨_, exec_ldrk_of_index h s, rfl, rfl, rfl, rfl, rfl, .inl rfl, _, rfl, rfl⟩
  | ark k =>
    rcases keyOperand_cases k s with ⟨-, h⟩ | ⟨i, -, -, h⟩ | ⟨i, key, -, -, h⟩
    · exact .inl ⟨.badField, by decide, by simp only [exec, execArk, h]⟩
    · exact .inl ⟨.keyUninit, by decide, by simp only [exec, execArk, h]⟩
    · rcases stateOperand_cases s with ⟨-, h'⟩ | ⟨x, -, h'⟩
      · exact .inl ⟨.stateUninit, by decide, by simp only [exec, execArk, h, h']⟩
      · exact .inr ⟨_, exec_ark_of_ok h h', rfl, rfl, rfl, rfl, rfl, .inl rfl, _, rfl, rfl⟩
  | sub =>
    rcases stateOperand_cases s with ⟨-, h⟩ | ⟨x, -, h⟩
    · exact .inl ⟨.stateUninit, by decide, by simp only [exec, execSub, h]⟩
    · exact .inr ⟨_, exec_sub_of_ok h, rfl, rfl, rfl, rfl, rfl, .inl rfl, _, rfl, rfl⟩
  | shr =>
    rcases stateOperand_cases s with ⟨-, h⟩ | ⟨x, -, h⟩
    · exact .inl ⟨.stateUninit, by decide, by simp only [exec, execShr, h]⟩
    · exact .inr ⟨_, exec_shr_of_ok h, rfl, rfl, rfl, rfl, rfl, .inl rfl, _, rfl, rfl⟩
  | mix =>
    rcases stateOperand_cases s with ⟨-, h⟩ | ⟨x, -, h⟩
    · exact .inl ⟨.stateUninit, by decide, by simp only [exec, execMix, h]⟩
    · exact .inr ⟨_, exec_mix_of_ok h, rfl, rfl, rfl, rfl, rfl, .inl rfl, _, rfl, rfl⟩
  | rnd k =>
    rcases keyOperand_cases k s with ⟨-, h⟩ | ⟨i, -, -, h⟩ | ⟨i, key, -, -, h⟩
    · exact .inl ⟨.badField, by decide, by simp only [exec, execRnd, h]⟩
    · exact .inl ⟨.keyUninit, by decide, by simp only [exec, execRnd, h]⟩
    · rcases stateOperand_cases s with ⟨-, h'⟩ | ⟨x, -, h'⟩
      · exact .inl ⟨.stateUninit, by decide, by simp only [exec, execRnd, h, h']⟩
      · exact .inr ⟨_, exec_rnd_of_ok h h', rfl, rfl, rfl, rfl, rfl, .inl rfl, _, rfl, rfl⟩
  | frnd k =>
    rcases keyOperand_cases k s with ⟨-, h⟩ | ⟨i, -, -, h⟩ | ⟨i, key, -, -, h⟩
    · exact .inl ⟨.badField, by decide, by simp only [exec, execFrnd, h]⟩
    · exact .inl ⟨.keyUninit, by decide, by simp only [exec, execFrnd, h]⟩
    · rcases stateOperand_cases s with ⟨-, h'⟩ | ⟨x, -, h'⟩
      · exact .inl ⟨.stateUninit, by decide, by simp only [exec, execFrnd, h, h']⟩
      · exact .inr ⟨_, exec_frnd_of_ok h h', rfl, rfl, rfl, rfl, rfl, .inl rfl, _, rfl, rfl⟩
  | encb n =>
    by_cases hn : 1 ≤ n.toNat ∧ n.toNat ≤ 16
    · rcases hk : kall s
      · exact .inl ⟨.keyUninit, by decide, by
          simp only [exec, execEncb, blockOperand_of_mem s hn, allKeysOperand_of_not_kall hk]⟩
      · obtain ⟨E, hE⟩ := exists_keys_of_kall hk
        exact .inr ⟨_, exec_encb_of_ok hn hE, rfl, rfl, rfl, rfl, rfl, .inr rfl, _, rfl, rfl⟩
    · exact .inl ⟨.badField, by decide, by simp only [exec, execEncb, blockOperand_of_not_mem s hn]⟩
  | reservedB _ => exact .inl ⟨.illegalOp, by decide, rfl⟩
  | reservedC _ => exact .inl ⟨.illegalOp, by decide, rfl⟩
  | reservedD _ => exact .inl ⟨.illegalOp, by decide, rfl⟩
  | reservedE _ => exact .inl ⟨.illegalOp, by decide, rfl⟩
  | reservedF _ => exact .inl ⟨.illegalOp, by decide, rfl⟩

/-- Every word answers a next state, in one of the same two ways. -/
theorem issue_cases (w : CmdWord) (d : BusWord) (s : State) :
    (∃ e, e ≠ .ok ∧ issue w d s = .next (takeError e { s with din := d })) ∨
    ∃ t, issue w d s = .next t ∧ endsOk { s with din := d } t := by
  rcases h : decode w with e | i
  · exact .inl ⟨.badField, by decide, issue_of_error h d s⟩
  · rw [issue_of_ok h]
    exact exec_cases i _

end Sys2Proof.Machine
end

