-- ==== Sys2Proof/Laws/Message.lean ====
section
/-!
SUPPORT. What the host's side can do, said once: a queue behind a command changes nothing of it, driving a ready core takes commands one
by one, and what the host keeps has its whole length.
-/

namespace Sys2Proof.Machine

/-- KALL is bit 13 of STATUS. -/
theorem readsKall_eq_kall (s : State) : readsKall s = kall s := by
  simp only [readsKall, status, BitVec.getLsbD_append, BitVec.getLsbD_ofBool]
  simp

/-! ### The queue behind a command -/

/-- What else the host holds changes nothing of a command. -/
theorem exec_inputs (i : Instr) (s : State) (es : List HostEvent) {t : State} (h : exec i s = .next t) :
    exec i { s with inputs := es } = .next { t with inputs := es } := by
  have hst : stateOperand { s with inputs := es } = stateOperand s := rfl
  cases i with
  | nop => cases h; rfl
  | ldst => cases h; rfl
  | rdst =>
    rcases stateOperand_cases s with ⟨-, hx⟩ | ⟨x, hx, -⟩
    · simp only [exec, execRdst, hx, hst] at h ⊢; cases h; rfl
    · rw [exec_rdst_of_some hx] at h; cases h
      exact exec_rdst_of_some (s := { s with inputs := es }) hx
  | ldrk k =>
    rcases hk : keyIndex k with _ | i
    · simp only [exec, execLdrk, hk] at h ⊢; cases h; rfl
    · simp only [exec, execLdrk, hk] at h ⊢; cases h; rfl
  | sub =>
    rcases hx : stateOperand s with e | x <;> simp only [exec, execSub, hst, hx] at h ⊢ <;> cases h <;> rfl
  | shr =>
    rcases hx : stateOperand s with e | x <;> simp only [exec, execShr, hst, hx] at h ⊢ <;> cases h <;> rfl
  | mix =>
    rcases hx : stateOperand s with e | x <;> simp only [exec, execMix, hst, hx] at h ⊢ <;> cases h <;> rfl
  | ark k =>
    have hk : keyOperand k { s with inputs := es } = keyOperand k s := rfl
    rcases h1 : keyOperand k s with e' | key <;> rcases hx : stateOperand s with e | x <;>
      simp only [exec, execArk, hst, hk, h1, hx] at h ⊢ <;> cases h <;> rfl
  | rnd k =>
    have hk : keyOperand k { s with inputs := es } = keyOperand k s := rfl
    rcases h1 : keyOperand k s with e' | key <;> rcases hx : stateOperand s with e | x <;>
      simp only [exec, execRnd, hst, hk, h1, hx] at h ⊢ <;> cases h <;> rfl
  | frnd k =>
    have hk : keyOperand k { s with inputs := es } = keyOperand k s := rfl
    rcases h1 : keyOperand k s with e' | key <;> rcases hx : stateOperand s with e | x <;>
      simp only [exec, execFrnd, hst, hk, h1, hx] at h ⊢ <;> cases h <;> rfl
  | encb n =>
    by_cases hn : 1 ≤ n.toNat ∧ n.toNat ≤ 16
    · rcases hk : kall s
      · have hk' : kall { s with inputs := es } = false := hk
        simp only [exec, execEncb, blockOperand_of_mem _ hn, allKeysOperand_of_not_kall hk,
          allKeysOperand_of_not_kall hk'] at h ⊢
        cases h; rfl
      · obtain ⟨E, hE⟩ := exists_keys_of_kall hk
        rw [exec_encb_of_ok hn hE] at h; cases h
        exact exec_encb_of_ok (s := { s with inputs := es }) hn hE
    · simp only [exec, execEncb, blockOperand_of_not_mem _ hn] at h ⊢
      cases h; rfl
  | reservedB _ => cases h; rfl
  | reservedC _ => cases h; rfl
  | reservedD _ => cases h; rfl
  | reservedE _ => cases h; rfl
  | reservedF _ => cases h; rfl

/-- The same of a word the host issues. -/
theorem issue_inputs (w : CmdWord) (d : BusWord) (s : State) (es : List HostEvent) {t : State} (h : issue w d s = .next t) :
    issue w d { s with inputs := es } = .next { t with inputs := es } := by
  rcases hd : decode w with e | i
  · rw [issue_of_error hd] at h ⊢; cases h; rfl
  · rw [issue_of_ok hd] at h ⊢
    exact exec_inputs i { s with din := d } es h

/-- A command leaves `rst` and the queue as they are. -/
theorem issue_host {w : CmdWord} {d : BusWord} {s t : State} (h : issue w d s = .next t) :
    t.rst = s.rst ∧ t.inputs = s.inputs := by
  rcases issue_cases w d s with ⟨e, -, h'⟩ | ⟨u, h', -, -, hr, hi, -⟩
  · rw [h'] at h; cases h; exact ⟨rfl, rfl⟩
  · rw [h'] at h; cases h; exact ⟨hr, hi⟩

/-! ### Driving a core -/

/-- Every step answers a next state. -/
theorem step_next (s : State) : ∃ t, step s = .next t := by
  unfold step
  split
  · exact ⟨_, rfl⟩
  · rename_i ev rest _
    cases ev with
    | command w d =>
      rcases issue_cases w d { s with inputs := rest } with ⟨e, -, h⟩ | ⟨t, h, -⟩
      · exact ⟨_, h⟩
      · exact ⟨_, h⟩
    | abandoned w d => exact ⟨_, rfl⟩
    | assertReset => exact ⟨_, rfl⟩
    | releaseReset => exact ⟨_, rfl⟩

theorem steps_next (n : Nat) (s : State) : ∃ t, steps n s = .next t := by
  induction n generalizing s with
  | zero => exact ⟨s, rfl⟩
  | succ n ih =>
    obtain ⟨t, h⟩ := step_next s
    simp only [steps, h]
    exact ih t

theorem drive_of_steps {es : List HostEvent} {s t : State}
    (h : steps (s.inputs.length + es.length) { s with inputs := s.inputs ++ es } = .next t) : drive es s = t := by
  simp only [drive, h]

theorem drive_nil {s : State} (hi : s.inputs = []) : drive [] s = s := by
  apply drive_of_steps
  rw [List.append_nil, hi]
  exact congrArg Host.Outcome.next (by rw [← hi])

/-- A ready core with nothing else to do takes the first command, and is driven on from there. -/
theorem drive_cons {w : CmdWord} {d : BusWord} {s t : State} (hr : s.rst = false) (hi : s.inputs = [])
    (h : issue w d s = .next t) (es : List HostEvent) : drive (.command w d :: es) s = drive es t := by
  have hti : t.inputs = [] := (issue_host h).2.trans hi
  have hstep : step { s with inputs := .command w d :: es } = .next { t with inputs := es } := by
    rw [step_event (s := { s with inputs := .command w d :: es }) hr rfl]
    exact issue_inputs w d s es h
  obtain ⟨v, hv⟩ := steps_next es.length { t with inputs := es }
  have h1 : drive es t = v := drive_of_steps (by rw [hti, List.nil_append, List.length_nil, Nat.zero_add, hv])
  rw [h1]
  apply drive_of_steps
  rw [hi, List.nil_append, List.length_nil, Nat.zero_add, List.length_cons, steps, hstep]
  exact hv

/-! ### What the host keeps -/

/-- What the host collects has a response for each block and 16 bytes for each response. -/
theorem collect_eq_some {n : Nat} {rs : List Response} {bs : List Byte} (h : collect n rs = some bs) :
    rs.length = n ∧ bs.length = 16 * n ∧ ∀ r ∈ rs, r.rsp = .ok := by
  induction n generalizing rs bs with
  | zero =>
    cases rs with
    | nil => simp only [collect, Option.some.injEq] at h; subst h; simp
    | cons r rs => simp [collect] at h
  | succ n ih =>
    cases rs with
    | nil => simp [collect] at h
    | cons r rs =>
      simp only [collect] at h
      split at h
      · rename_i hr
        rw [Option.map_eq_some_iff] at h
        obtain ⟨cs, hc, rfl⟩ := h
        obtain ⟨h1, h2, h3⟩ := ih hc
        refine ⟨by simp [h1], by simp [h2]; omega, ?_⟩
        intro x hx
        rcases List.mem_cons.mp hx with rfl | hx
        · exact hr
        · exact h3 x hx
      · cases h

/-- A block is kept only from one response, which is OK. -/
theorem blockOf_eq_some {rs : List Response} {b : Block} (h : blockOf rs = some b) :
    ∃ r, rs = [r] ∧ r.rsp = .ok ∧ b = bytes r.dout := by
  match rs, h with
  | [r], h =>
    simp only [blockOf] at h
    split at h
    · rename_i hr; exact ⟨r, rfl, hr, (Option.some.inj h).symm⟩
    · cases h

theorem blockOf_eq_none {rs : List Response} (h : rs = [] ∨ ∃ r ∈ rs, r.rsp ≠ .ok) : blockOf rs = none := by
  rcases hb : blockOf rs with _ | b
  · rfl
  · obtain ⟨r, rfl, hr, -⟩ := blockOf_eq_some hb
    simp [hr] at h

/-- A schedule in two parts: the second runs on the cores the first leaves, and both must give their blocks. -/
theorem runBlocksOn_append {n : Nat} (P : List Byte) (filler : Nat → Byte) (pre rest : List (Nat × Fin n)) (sys : System n) :
    runBlocksOn P filler (pre ++ rest) sys =
      ((runBlocksOn P filler pre sys).1.bind fun bs =>
          (runBlocksOn P filler rest (runBlocksOn P filler pre sys).2).1.map fun cs => bs ++ cs,
        (runBlocksOn P filler rest (runBlocksOn P filler pre sys).2).2) := by
  induction pre generalizing sys with
  | nil => simp [runBlocksOn]
  | cons e pre ih =>
    obtain ⟨j, i⟩ := e
    rcases h : (runBlockOn i P filler j sys).1 with _ | b
    · simp [runBlocksOn, ih, h]
    · rcases h' : (runBlocksOn P filler pre (runBlockOn i P filler j sys).2).1 with _ | bs
      · simp [runBlocksOn, ih, h, h']
      · simp [runBlocksOn, ih, h, h', Function.comp_def]

theorem assembleBlocks_length {blocks : List (Nat × Block)} {js : List Nat} {bs : List Byte}
    (h : assembleBlocks blocks js = some bs) : bs.length = 16 * js.length := by
  induction js generalizing bs with
  | nil => simp only [assembleBlocks, Option.some.injEq] at h; subst h; rfl
  | cons j js ih =>
    simp only [assembleBlocks, Option.bind_eq_some_iff, Option.map_eq_some_iff] at h
    obtain ⟨b, -, cs, hc, rfl⟩ := h
    have := ih hc
    simp [this]; omega

theorem blockCount_paddedLength (P : List Byte) : 16 * blockCount P = paddedLength P.length := by
  simp only [blockCount, paddedLength]; omega

end Sys2Proof.Machine
end

