-- ==== Sys2Proof/Laws/PerInstr.lean ====
section
/-!
SUPPORT. Facts about commands as syntax, one lemma per constructor: the word of a command carries its opcode in OP
(spec/30_encoding.md R61, R64).
-/

namespace Sys2Proof.Laws.EncodedOpcode

/-- OP of the encoded word is the command's opcode. -/
def Statement (i : Instr) : Prop := opField (encode i) = opcode i

theorem nop : Statement .nop := opField_packWord _ _ _
theorem ldst : Statement .ldst := opField_packWord _ _ _
theorem rdst : Statement .rdst := opField_packWord _ _ _
theorem ldrk (k : BitVec 4) : Statement (.ldrk k) := opField_packWord _ _ _
theorem ark (k : BitVec 4) : Statement (.ark k) := opField_packWord _ _ _
theorem sub : Statement .sub := opField_packWord _ _ _
theorem shr : Statement .shr := opField_packWord _ _ _
theorem mix : Statement .mix := opField_packWord _ _ _
theorem rnd (k : BitVec 4) : Statement (.rnd k) := opField_packWord _ _ _
theorem frnd (k : BitVec 4) : Statement (.frnd k) := opField_packWord _ _ _
theorem encb (n : BitVec 5) : Statement (.encb n) := opField_packWord _ _ _
theorem reservedB (rest : BitVec 12) : Statement (.reservedB rest) := opField_packReserved _ _
theorem reservedC (rest : BitVec 12) : Statement (.reservedC rest) := opField_packReserved _ _
theorem reservedD (rest : BitVec 12) : Statement (.reservedD rest) := opField_packReserved _ _
theorem reservedE (rest : BitVec 12) : Statement (.reservedE rest) := opField_packReserved _ _
theorem reservedF (rest : BitVec 12) : Statement (.reservedF rest) := opField_packReserved _ _

end Sys2Proof.Laws.EncodedOpcode
end

