-- ==== Sys2Proof/Laws/Tables.lean ====
section
/-!
SUPPORT. The tables and the byte order: the printed MUL2 and MUL3 tables are the formulas, and `bytes` and `word` undo each
other byte by byte.
-/

namespace Sys2Proof.Machine

/-- A claim about every byte, decided by the kernel. -/
theorem forall_byte {p : Byte → Prop} (h : ∀ i : Fin 256, p (BitVec.ofFin i)) : ∀ b, p b := fun b => h b.toFin

theorem mul2_eq_table : ∀ b, mul2 b = tableRead mul2Rows b := forall_byte (by decide +kernel)

theorem mul3_eq_table : ∀ b, mul3 b = tableRead mul3Rows b := forall_byte (by decide +kernel)

theorem mul2_xor (a b : Byte) : mul2 (a ^^^ b) = mul2 a ^^^ mul2 b := by
  rcases ha : a.msb <;> rcases hb : b.msb <;>
    simp only [mul2, BitVec.msb_xor, ha, hb, BitVec.shiftLeft_xor_distrib, Bool.xor_false, Bool.xor_true,
      Bool.not_true, Bool.not_false, if_true, if_false, Bool.false_eq_true] <;>
    (ac_nf; try simp)

theorem mul3_xor (a b : Byte) : mul3 (a ^^^ b) = mul3 a ^^^ mul3 b := by
  simp only [mul3, mul2_xor]; ac_rfl

/-! ### Byte order -/

@[simp] theorem bytes_getElem (w : BusWord) (i : Nat) (h : i < 16) : (bytes w)[i] = byteOf w i := by
  simp [bytes]

/-- Byte `i` of a word, by its bits. -/
theorem byteOf_getLsbD (w : BusWord) (i j : Nat) : (byteOf w i).getLsbD j = (decide (j < 8) && w.getLsbD (120 - 8 * i + j)) := by
  simp [byteOf]

theorem byteOf_word (s : Block) (i : Fin 16) : byteOf (word s) i = s[i] := by
  unfold byteOf word
  fin_cases i <;>
    simp (disch := omega) only [BitVec.extractLsb'_append_eq_of_add_le, BitVec.extractLsb'_append_eq_of_le] <;>
    exact BitVec.extractLsb'_eq_self

@[simp] theorem bytes_word (s : Block) : bytes (word s) = s := by
  apply Vector.ext
  intro i hi
  rw [bytes_getElem]
  exact byteOf_word s ⟨i, hi⟩

/-- Two bus words with the same bytes are the same word. -/
theorem busWord_ext {v w : BusWord} (h : ∀ i : Fin 16, byteOf v i = byteOf w i) : v = w := by
  apply BitVec.eq_of_getLsbD_eq
  intro j hj
  have hb := congrArg (fun b : Byte => b.getLsbD (j % 8)) (h ⟨15 - j / 8, by omega⟩)
  have h8 : j % 8 < 8 := Nat.mod_lt _ (by omega)
  have hj' : 120 - 8 * (15 - j / 8) + j % 8 = j := by omega
  simpa only [byteOf_getLsbD, h8, decide_true, Bool.true_and, hj'] using hb

@[simp] theorem word_bytes (w : BusWord) : word (bytes w) = w := by
  apply busWord_ext
  intro i
  rw [byteOf_word]
  exact bytes_getElem w i.val i.isLt

end Sys2Proof.Machine
end

