-- ==== Sys2Proof/Tests/Slice0.lean ====
section
/-!
SUPPORT. Tests of the model, and a witness for the hypotheses of every statement. Expected values are written from the spec: words from the
format of spec/30_encoding.md R61 and the examples of R65, results from 95_test_vectors.md (the section is named at each group).
-/

namespace Sys2Proof.Tests

open Sys2Proof Sys2Proof.Machine

-- One theorem at a time: a thread for each of them would pass the memory limit.
set_option Elab.async false

/-! ### Small states and readers -/

/-- After reset, with STATE loaded. -/
def withState (x : BusWord) : State := { State.reset with stateReg := some (bytes x) }

/-- After reset, with one round key loaded. -/
def withKey (k : Fin 11) (x : BusWord) : State := { State.reset with rk := State.reset.rk.set k (some (bytes x)) }

/-- After reset, with one round key and STATE loaded. -/
def withKeyAndState (k : Fin 11) (key x : BusWord) : State := { withKey k key with stateReg := some (bytes x) }

/-- After reset, with the eleven round keys of V1. -/
def withV1 : State := { State.reset with rk := Vector.ofFn fun k => some (v1Keys k) }

/-- The code and the STATUS word that a command leaves. -/
def codeAndStatus (w : CmdWord) (d : BusWord) (s : State) : Option (Rsp × StatusWord) :=
  match issue w d s with
  | .next t => some (t.lastRsp, status t)
  | .fault _ => none
  | .refused _ => none

/-- STATE after a command, as a bus word. -/
def stateAfter (w : CmdWord) (d : BusWord) (s : State) : Option BusWord :=
  match issue w d s with
  | .next t => t.stateReg.map word
  | .fault _ => none
  | .refused _ => none

/-- The newest result word. -/
def doutAfter (w : CmdWord) (d : BusWord) (s : State) : Option BusWord :=
  match issue w d s with
  | .next t => t.responses.getLast?.map Response.dout
  | .fault _ => none
  | .refused _ => none

/-- A text as characters. -/
def chars (s : String) : List Char := s.toList

/-- The host events as words and operands. -/
def wordsOf (es : Option (List HostEvent)) : Option (List (CmdWord × BusWord)) :=
  es.map fun l => l.filterMap fun e =>
    match e with
    | .command w d => some (w, d)
    | .abandoned _ _ => none
    | .assertReset => none
    | .releaseReset => none

/-! ### WellFormed: an ill-formed term for each check, and the values at its edge (R62, R63) -/

theorem test_wf_ldrk : Instr.wellFormed (.ldrk 11) = false ∧ Instr.wellFormed (.ldrk 10) = true := by decide
theorem test_wf_ark : Instr.wellFormed (.ark 11) = false ∧ Instr.wellFormed (.ark 0) = true := by decide
theorem test_wf_rnd : Instr.wellFormed (.rnd 15) = false ∧ Instr.wellFormed (.rnd 10) = true := by decide
theorem test_wf_frnd : Instr.wellFormed (.frnd 12) = false ∧ Instr.wellFormed (.frnd 10) = true := by decide
theorem test_wf_encb_low : Instr.wellFormed (.encb 0) = false ∧ Instr.wellFormed (.encb 1) = true := by decide
theorem test_wf_encb_high : Instr.wellFormed (.encb 17) = false ∧ Instr.wellFormed (.encb 16) = true := by decide

/-! ### Decode: words written out bit by bit, RSV NB RSEL OP (R61, R64) -/

theorem test_decode_nop : decode 0b000_00000_0000_0000 = .ok .nop := by decide
theorem test_decode_ldst : decode 0b000_00000_0000_0001 = .ok .ldst := by decide
theorem test_decode_rdst : decode 0b000_00000_0000_0010 = .ok .rdst := by decide
theorem test_decode_ldrk : decode 0b000_00000_1010_0011 = .ok (.ldrk 10) := by decide
theorem test_decode_ark : decode 0b000_00000_0110_0100 = .ok (.ark 6) := by decide
theorem test_decode_sub : decode 0b000_00000_0000_0101 = .ok .sub := by decide
theorem test_decode_shr : decode 0b000_00000_0000_0110 = .ok .shr := by decide
theorem test_decode_mix : decode 0b000_00000_0000_0111 = .ok .mix := by decide
theorem test_decode_rnd : decode 0b000_00000_1001_1000 = .ok (.rnd 9) := by decide
theorem test_decode_frnd : decode 0b000_00000_0101_1001 = .ok (.frnd 5) := by decide
theorem test_decode_encb : decode 0b000_10000_0000_1010 = .ok (.encb 16) := by decide
theorem test_decode_encb_short : decode 0b000_00001_0000_1010 = .ok (.encb 1) := by decide
theorem test_decode_reservedB : decode 0b000_00001_0000_1011 = .ok (.reservedB 0x010) := by decide
theorem test_decode_reservedC : decode 0b111_11111_1111_1100 = .ok (.reservedC 0xFFF) := by decide
theorem test_decode_reservedD : decode 0b101_00000_0000_1101 = .ok (.reservedD 0xA00) := by decide
theorem test_decode_reservedE : decode 0b000_00000_0001_1110 = .ok (.reservedE 0x001) := by decide
theorem test_decode_reservedF : decode 0b000_00000_1111_1111 = .ok (.reservedF 0x00F) := by decide

/-- Each reason for BAD_FIELD, by its name (R67). -/
theorem test_decode_errors :
    decode 0b001_00000_0000_0101 = .error .rsvNotZero ∧ decode 0b000_00000_1011_0011 = .error .rselAboveTen ∧
    decode 0b000_00000_0001_0000 = .error .rselNotZero ∧ decode 0b000_00000_0000_1010 = .error .nbOutOfRange ∧
    decode 0b000_10001_0000_1010 = .error .nbOutOfRange ∧ decode 0b000_00001_0000_0100 = .error .nbNotZero := by decide

theorem test_encode_examples :
    encode (.ldrk 10) = 0x00A3 ∧ encode (.rnd 9) = 0x0098 ∧ encode (.encb 4) = 0x040A ∧ encode (.reservedF 0x00F) = 0x00FF := by
  decide

theorem test_table_word : decodeTableWord 16 0x0018 = some (.rnd 1) ∧ decodeTableWord 16 0x000A = none := by decide

/-! ### Tables (95_test_vectors.md, Tables) -/

theorem test_sbox : sbox 0x53 = 0xed ∧ sbox 0x80 = 0xcd ∧ sbox 0xaa = 0xac ∧ sbox 0xfe = 0xbb := by decide
theorem test_mul : mul2 0x83 = 0x1d ∧ mul2 0xaa = 0x4f ∧ mul3 0x57 = 0xf9 ∧ mul3 0x83 = 0x9e := by decide

/-! ### One step of each command (95_test_vectors.md, L2) -/

theorem test_nop : codeAndStatus 0x0000 0 State.reset = some (.ok, 0x00000001) := by decide +kernel
theorem test_ldst : codeAndStatus 0x0001 0x000102030405060708090a0b0c0d0e0f State.reset = some (.ok, 0x00000003) := by
  decide +kernel
theorem test_ldst_dout : doutAfter 0x0001 0x000102030405060708090a0b0c0d0e0f State.reset =
    some 0x000102030405060708090a0b0c0d0e0f := by decide +kernel
theorem test_rdst : doutAfter 0x0002 0 (withState 0x00112233445566778899aabbccddeeff) =
    some 0x00112233445566778899aabbccddeeff := by decide +kernel
theorem test_rdst_uninit : codeAndStatus 0x0002 0 State.reset = some (.stateUninit, 0x00440001) := by decide +kernel
theorem test_ldrk : codeAndStatus 0x0013 0xd6aa74fdd2af72fadaa678f1d6ab76fe State.reset = some (.ok, 0x00000009) := by
  decide +kernel
theorem test_ldrk_last : codeAndStatus 0x00A3 0 State.reset = some (.ok, 0x00001001) := by decide +kernel
theorem test_ark : stateAfter 0x0004 0 (withKeyAndState 0 0x000102030405060708090a0b0c0d0e0f 0xffffffffffffffffffffffffffffffff) =
    some 0xfffefdfcfbfaf9f8f7f6f5f4f3f2f1f0 := by decide +kernel
theorem test_ark_key_before_state : codeAndStatus 0x0004 0 State.reset = some (.keyUninit, 0x00330001) := by decide +kernel
theorem test_sub : stateAfter 0x0005 0 (withState 0x00112233445566778899aabbccddeeff) =
    some 0x638293c31bfc33f5c4eeacea4bc12816 := by decide +kernel
theorem test_sub_uninit : codeAndStatus 0x0005 0 State.reset = some (.stateUninit, 0x00440001) := by decide +kernel
theorem test_shr : stateAfter 0x0006 0 (withState 0x00000000111111112222222233333333) =
    some 0x00112233112233002233001133001122 := by decide +kernel
theorem test_mix : stateAfter 0x0007 0 (withState 0x000102030405060708090a0b0c0d0e0f) =
    some 0x02070005060304010a0f080d0e0b0c09 := by decide +kernel
theorem test_mix_reduction : stateAfter 0x0007 0 (withState 0x8000000000000080d4d4d4d52d26314c) =
    some 0x1b80809b80809b1bd5d5d7d64d7ebdf8 := by decide +kernel
theorem test_rnd : stateAfter 0x0098 0
    (withKeyAndState 9 0x549932d1f08557681093ed9cbe2c974e 0xfde3bad205e5d0d73547964ef1fe37f1) =
    some 0xbd6e7c3df2b5779e0b61216e8b10b689 := by decide +kernel
theorem test_rnd_key : codeAndStatus 0x0018 0 (withKeyAndState 0 1 2) = some (.keyUninit, 0x00330007) := by decide +kernel
theorem test_frnd : stateAfter 0x00A9 0
    (withKeyAndState 10 0x13111d7fe3944a17f307a78b4d2b30c5 0xbd6e7c3df2b5779e0b61216e8b10b689) =
    some 0x69c4e0d86a7b0430d8cdb78070b4c55a := by decide +kernel
theorem test_encb_padding : doutAfter 0x040A 0xdeadbeef112233445566778899aabbcc withV1 =
    some 0x91406ce478177744068d8d83645dc15d := by decide +kernel
theorem test_encb_one : codeAndStatus 0x010A 0xff00000000000000000000000000ffff withV1 = some (.ok, 0x00003FFF) := by
  decide +kernel

/-! ### Errors (95_test_vectors.md, Errors and their order) -/

theorem test_reservedB : codeAndStatus 0x010B 0 State.reset = some (.illegalOp, 0x00110001) := by decide +kernel
theorem test_reservedC : codeAndStatus 0x000C 0 State.reset = some (.illegalOp, 0x00110001) := by decide +kernel
theorem test_reservedD : codeAndStatus 0x200D 0 State.reset = some (.illegalOp, 0x00110001) := by decide +kernel
theorem test_reservedE : codeAndStatus 0x1FFE 0 State.reset = some (.illegalOp, 0x00110001) := by decide +kernel
theorem test_reservedF : codeAndStatus 0x00FF 0 State.reset = some (.illegalOp, 0x00110001) := by decide +kernel
theorem test_bad_field : codeAndStatus 0x0010 0 State.reset = some (.badField, 0x00220001) ∧
    codeAndStatus 0x2005 0 State.reset = some (.badField, 0x00220001) ∧
    codeAndStatus 0x00C4 0 State.reset = some (.badField, 0x00220001) ∧
    codeAndStatus 0x000A 0 State.reset = some (.badField, 0x00220001) ∧
    codeAndStatus 0x110A 0 State.reset = some (.badField, 0x00220001) := by decide +kernel
theorem test_encb_no_keys : codeAndStatus 0x100A 0 State.reset = some (.keyUninit, 0x00330001) := by decide +kernel

/-- P4: the first error stays in ERR. -/
theorem test_error_is_sticky :
    codeAndStatus 0x0002 0 { State.reset with err := .keyUninit, lastRsp := .keyUninit } = some (.stateUninit, 0x00430001) := by
  decide +kernel

/-! ### Tags, the trace of one command, and the message function -/

/-- V1: the tags of steps 1, 2, 5, 39 and 40 of a block. -/
theorem test_tags : seqTag ⟨0, .ark⟩ = 0x00 ∧ seqTag ⟨1, .sub⟩ = 0x11 ∧ seqTag ⟨1, .ark⟩ = 0x10 ∧ seqTag ⟨10, .shr⟩ = 0xA2 ∧
    seqTag ⟨10, .ark⟩ = 0xA0 := by decide

/-- V1: STATE after the first five steps of the sequencer. -/
theorem test_schedule_values :
    (scheduleEvents v1Keys (schedule.take 5) (bytes 0x00112233445566778899aabbccddeeff)).map TraceEvent.data =
      [0x00102030405060708090a0b0c0d0e0f0, 0x63cab7040953d051cd60e0e7ba70e18c, 0x6353e08c0960e104cd70b751bacad0e7,
       0x5f72641557f5bc92f7be3b291db9f91a, 0x89d810e8855ace682d1843d8cb128fe4] := by decide +kernel

/-- With a trace port, SUB emits one event with tag {0, 1, 1}. -/
theorem test_trace (h : Config.traceEn = true) : ∃ t, issue 0x0005 0 (withState 0) = .next t ∧
    t.trace = [⟨0x05, 0x63636363636363636363636363636363⟩] := by
  refine ⟨_, rfl, ?_⟩
  simp only [finishElementary, respondState, respondData, emit, traceEvents, h, if_true]
  decide +kernel

/-- V5. -/
theorem test_padded_length : [0, 1, 15, 16, 17, 20, 32, 33].map paddedLength = [0, 16, 16, 16, 32, 32, 32, 48] := by decide

/-- P3: the two blocks of the 20-byte message, as the core computes them. -/
theorem test_ecb_message :
    ecbWith ((List.range 20).map fun i => BitVec.ofNat 8 i) v1Keys =
      (bytes 0x0a940bb5416ef045f1c39458c653ea5a).toList ++ (bytes 0x6abfb8b0f4c93f0884e4b438ef4e47d1).toList := by decide +kernel

/-- R166, R167: with one of two cores in reset there is no ciphertext, and blocks land at their own offsets whatever their order. -/
theorem test_parallel_core_in_reset :
    (encryptParallel [(0, 0), (1, 1)] (List.replicate 16 0) (List.replicate 20 5) (fun _ => 0) none
      (#v[State.reset, { State.reset with rst := true }])).1 = none := by decide +kernel
theorem test_assemble_blocks :
    assembleBlocks [(1, bytes 0x22), (0, bytes 0x11)] [0, 1] = some ((bytes 0x11).toList ++ (bytes 0x22).toList) ∧
    assembleBlocks [(1, bytes 0x22)] [0, 1] = none := by decide +kernel

/-! ### Assembler (R69, R70) -/

theorem test_asm_line : wordsOf (assembleLine (chars " LDRK 10, 000102030405060708090A0b0c0d0e0f ; key")) =
    some [(0x00A3, 0x000102030405060708090a0b0c0d0e0f)] := by decide +kernel
theorem test_asm_word : wordsOf (assemble (chars ".word 0x2005\n; nothing\n\nround 9")) = some [(0x2005, 0), (0x0098, 0)] := by
  decide +kernel
theorem test_asm_ecb : wordsOf (assembleLine (chars "ecb 000102030405060708090a0b0c0d0e0f10111213")) =
    some [(0x100A, 0x000102030405060708090a0b0c0d0e0f), (0x040A, 0x10111213000000000000000000000000)] := by decide +kernel
theorem test_asm_refused : assembleLine (chars "ark 11") = none ∧ assembleLine (chars "encb 0, 00") = none := by decide +kernel

/-! ### The step -/

/-- The host's word is run next, whatever it still holds. -/
theorem test_step_word : (match step (State.reset.withFetchWord 16 0x0000) with
    | .next t => some (t.lastRsp, t.responses.length, t.inputs)
    | .fault _ => none
    | .refused _ => none) = some (.ok, 1, []) := by decide +kernel

/-- While `rst` is 1 a command waits and the release is taken first (R210, R221). -/
theorem test_step_in_reset :
    step { State.reset with rst := true, inputs := [.command 0x0000 5, .releaseReset] } =
      .next { State.reset with inputs := [.command 0x0000 5] } := rfl

/-! ### Witnesses: for each statement with hypotheses, values that meet them, clause by clause and at the edge of each range -/

theorem witness_DecodeOfEncodeIsTheCommand :
    Instr.wellFormed (.ldrk 10) = true ∧ Instr.wellFormed (.encb 1) = true ∧ Instr.wellFormed (.encb 16) = true ∧
    Instr.wellFormed (.reservedF 0xFFF) = true := by decide

theorem witness_EveryWordIsOneCommandOrOneError :
    illegalWord 0x000B = true ∧ (illegalWord 0x00B3 = false ∧ badFieldWord 0x00B3 = true) ∧
    (illegalWord 0x00A3 = false ∧ badFieldWord 0x00A3 = false) ∧ (illegalWord 0x100A = false ∧ badFieldWord 0x100A = false) := by
  decide

theorem witness_LegalWordsAreSixtySix : illegalWord 0x100A = false ∧ ∃ i, decode 0x100A = .ok i := ⟨by decide, .encb 16, by decide⟩

theorem witness_WordsFitExactlyTheirRow :
    (∃ i, decode 0x00A9 = .ok i) ∧ (⟨"FRND", 0x0009, 0xFF0F⟩ ∈ opcodeTable ∧ rowFits ⟨"FRND", 0x0009, 0xFF0F⟩ 0x00A9 = true) :=
  ⟨⟨.frnd 10, by decide⟩, by decide⟩

/-- The core while `rst` is 1. -/
def inReset : State := { State.reset with rst := true }

/-- A state in which the host presents one command. -/
def presented (w : CmdWord) : State := { State.reset with inputs := [.command w 7] }

theorem witness_StepRunsTheDecodedCommand :
    ((presented 0x0001).rst = false ∧ (presented 0x0001).inputs = .command 0x0001 7 :: [] ∧ decode 0x0001 = .ok .ldst) ∧
    ((presented 0x000A).rst = false ∧ (presented 0x000A).inputs = .command 0x000A 7 :: [] ∧
      decode 0x000A = .error .nbOutOfRange) ∧
    decodeTableWord 16 0x00A3 = some (.ldrk 10) := by decide

theorem witness_IdleCoreKeepsItsState : State.reset.rst = false ∧ State.reset.inputs = [] := by decide

theorem witness_EveryAcceptedCommandResponds : 0 ≤ 1 ∧ 1 ≤ ([(0x000B, 7)] : List (CmdWord × BusWord)).length ∧
    (presented 0x000B).rst = false ∧
    (presented 0x000B).inputs = ([(0x000B, 7)] : List (CmdWord × BusWord)).map (fun c => HostEvent.command c.1 c.2) := by decide

theorem witness_EveryStepKeepsSafeStates : safeState (presented 0x0002) ∧
    step (presented 0x0002) = .next (takeError .stateUninit { State.reset with din := 7 }) := ⟨by decide, rfl⟩

theorem witness_ErrorWritesOnlyItsRecord : responseCode 0x0002 State.reset ≠ .ok ∧ responseCode 0x000B State.reset ≠ .ok := by
  decide

theorem witness_SuccessClearsLastrspOnly : responseCode 0x0001 State.reset = .ok ∧ responseCode 0x100A withV1 = .ok := by
  decide +kernel

theorem witness_ResultWordIsStateOrFree :
    (responseCode 0x0001 State.reset = .ok ∧ returnsState 0x0001 = true) ∧ responseCode 0x0010 State.reset ≠ .ok ∧
    (responseCode 0x0003 State.reset = .ok ∧ returnsState 0x0003 = false) := by decide

theorem witness_ErrorsDoNotBlockLaterCommands : responseCode 0x00B3 State.reset ≠ .ok := by decide

theorem witness_ErrKeepsTheFirstError :
    ({ State.reset with err := .keyUninit } : State).err ≠ .ok ∧ State.reset.err = .ok := by decide

/-- The words of a plain command: a good one, and a bad one for each field. -/
theorem witness_plain_words :
    (opField 0x0005 = 0x5 ∧ rselField 0x0005 = 0 ∧ nbField 0x0005 = 0 ∧ rsvField 0x0005 = 0) ∧
    (opField 0x0010 = 0x0 ∧ rselField 0x0010 ≠ 0) ∧ (opField 0x0101 = 0x1 ∧ nbField 0x0101 ≠ 0) ∧
    (opField 0x2002 = 0x2 ∧ rsvField 0x2002 ≠ 0) := by decide

/-- The words of a keyed command, at both sides of its range. -/
theorem witness_keyed_words :
    (opField 0x00A3 = 0x3 ∧ (rselField 0x00A3).toNat ≤ 10 ∧ nbField 0x00A3 = 0 ∧ rsvField 0x00A3 = 0) ∧
    (opField 0x00B4 = 0x4 ∧ 10 < (rselField 0x00B4).toNat) ∧ (opField 0x0108 = 0x8 ∧ nbField 0x0108 ≠ 0) ∧
    (opField 0x2009 = 0x9 ∧ rsvField 0x2009 ≠ 0) := by decide

/-- The words of ENCB, at both sides of its range. -/
theorem witness_counted_words :
    (opField 0x100A = 0xA ∧ rselField 0x100A = 0 ∧ rsvField 0x100A = 0 ∧ (nbField 0x100A).toNat = 16) ∧
    (nbField 0x010A).toNat = 1 ∧ (nbField 0x110A).toNat = 17 ∧ (nbField 0x000A).toNat = 0 ∧
    (opField 0x101A = 0xA ∧ rselField 0x101A ≠ 0) ∧ (opField 0x200A = 0xA ∧ rsvField 0x200A ≠ 0) := by decide

/-- STATE not loaded, and STATE loaded: RDST, SUB, SHR, MIX. -/
theorem witness_RdstReturnsState : stv State.reset = false ∧ (withState 5).stateReg = some (bytes 5) := by decide

theorem witness_SubSubstitutesEveryByte : stv State.reset = false ∧ (withState 5).stateReg = some (bytes 5) := by decide

theorem witness_ShrRotatesTheRows : stv State.reset = false ∧ (withState 5).stateReg = some (bytes 5) ∧
    ∀ i : Fin 16, (bytes 0x0a0b0c0d0a0b0c0d0a0b0c0d0a0b0c0d)[i] = (bytes 0x0a0b0c0d0a0b0c0d0a0b0c0d0a0b0c0d)[i.val % 4] := by
  decide +kernel

theorem witness_MixMixesTheColumns : stv State.reset = false ∧ (withState 5).stateReg = some (bytes 5) := by decide

/-- An index above 10, and index 10 with its place in the RK file. -/
theorem witness_LdrkLoadsTheNamedRoundKey :
    10 < (11 : BitVec 4).toNat ∧ (10 : Fin 11).val = (10 : BitVec 4).toNat ∧
    (∃ t, exec (.ldrk 10) State.reset = .next t) ∧ (0 : Fin 11) ≠ 10 := ⟨by decide, by decide, ⟨_, rfl⟩, by decide⟩

/-- The three checks of ARK, RND and FRND, and a state that passes them, at index 0 and at index 10. -/
theorem witness_key_then_state :
    10 < (11 : BitVec 4).toNat ∧ ((10 : Fin 11).val = (10 : BitVec 4).toNat ∧ kv State.reset 10 = false) ∧
    (kv (withKey 10 3) 10 = true ∧ stv (withKey 10 3) = false) ∧
    ((withKeyAndState 10 3 5).rk[(10 : Fin 11)] = some (bytes 3) ∧ (withKeyAndState 10 3 5).stateReg = some (bytes 5)) ∧
    ((0 : Fin 11).val = (0 : BitVec 4).toNat ∧ (withKeyAndState 0 3 5).rk[(0 : Fin 11)] = some (bytes 3) ∧
      (withKeyAndState 0 3 5).stateReg = some (bytes 5)) := by decide +kernel

theorem witness_ArkAddsTheNamedRoundKey : (withKeyAndState 0 3 5).rk[(0 : Fin 11)] = some (bytes 3) ∧
    (withKeyAndState 0 3 5).stateReg = some (bytes 5) ∧ (0 : Fin 11).val = (0 : BitVec 4).toNat := by decide +kernel

theorem witness_RndAppliesAStandardRound : (withKeyAndState 1 3 5).rk[(1 : Fin 11)] = some (bytes 3) ∧
    (withKeyAndState 1 3 5).stateReg = some (bytes 5) ∧ (1 : Fin 11).val = (1 : BitVec 4).toNat := by decide +kernel

theorem witness_FrndAppliesAFinalRound : (withKeyAndState 10 3 5).rk[(10 : Fin 11)] = some (bytes 3) ∧
    (withKeyAndState 10 3 5).stateReg = some (bytes 5) ∧ (10 : Fin 11).val = (10 : BitVec 4).toNat := by decide +kernel

theorem witness_EncbEncryptsOneBlock :
    ¬(1 ≤ (0 : BitVec 5).toNat ∧ (0 : BitVec 5).toNat ≤ 16) ∧ ¬(1 ≤ (17 : BitVec 5).toNat ∧ (17 : BitVec 5).toNat ≤ 16) ∧
    (1 ≤ (1 : BitVec 5).toNat ∧ (16 : BitVec 5).toNat ≤ 16) ∧ kall State.reset = false ∧
    (∀ k : Fin 11, withV1.rk[k] = some (v1Keys k)) ∧
    ∀ i : Fin 16, 4 ≤ i.val → i.val < 16 → (bytes 0xdeadbeef000000000000000000000000)[i] = 0 := by decide +kernel

theorem witness_RegistersAreTouchedOnlyAsListed :
    (∃ t, exec .nop State.reset = .next t) ∧ (∃ t, exec .rdst State.reset = .next t ∧ t.lastRsp ≠ .ok) ∧
    ((.ldst : Instr) = .ldst ∧ ∀ k, Instr.ldst ≠ .ldrk k) ∧ (∃ t, exec .ldst State.reset = .next t ∧ t.lastRsp = .ok) ∧
    ((10 : Fin 11).val = (10 : BitVec 4).toNat ∧ (withKey 10 3).rk[(10 : Fin 11)] = (withKeyAndState 10 3 5).rk[(10 : Fin 11)] ∧
      (withKey 10 3).rk = (withKeyAndState 10 3 5).rk ∧ (0 : Fin 11).val ≠ (10 : BitVec 4).toNat) :=
  ⟨⟨_, rfl⟩, ⟨_, rfl, by decide⟩, ⟨rfl, by simp⟩, ⟨_, rfl, rfl⟩, by decide +kernel⟩

theorem witness_OnlyResetClearsValidBits :
    (∃ t, step { withKeyAndState 10 3 5 with inputs := [.assertReset] } = .next t ∧ stv (withKeyAndState 10 3 5) = true ∧
      stv t = false ∧ kv (withKeyAndState 10 3 5) 10 = true ∧ kv t 10 = false) ∧
    (∃ t, step (presented 0x0001) = .next t ∧ stv (presented 0x0001) = false ∧ stv t = true) ∧
    (∃ t, step (presented 0x00A3) = .next t ∧ kv (presented 0x00A3) 10 = false ∧ kv t 10 = true) ∧
    (∃ t, exec .ldst State.reset = .next t ∧ t.lastRsp = .ok) ∧ (0 : Fin 11).val = (0 : BitVec 4).toNat :=
  ⟨⟨_, rfl, by decide +kernel⟩, ⟨_, rfl, by decide +kernel⟩, ⟨_, rfl, by decide +kernel⟩, ⟨_, rfl, rfl⟩, rfl⟩

theorem witness_UnusedOperandHasNoEffect : opField 0x0005 ≠ 0x1 ∧ opField 0x0005 ≠ 0x3 ∧ opField 0x0005 ≠ 0xA := by decide

theorem witness_RepeatedTransfersAreIdempotent : opField 0x0000 = 0x0 ∧ opField 0x0001 = 0x1 ∧ opField 0x0002 = 0x2 ∧
    opField 0x00A3 = 0x3 ∧ opField 0x000A = 0xA := by decide

/-- TRACE_EN is open, so what can be shown is that it is one of its two values; each clause of the statement is about one. -/
theorem witness_TraceEventsAreCounted : (Config.traceEn = true ∨ Config.traceEn = false) ∧
    (∃ t, exec .sub (withState 5) = .next t ∧ t.lastRsp = .ok) ∧ (∃ t, exec .sub State.reset = .next t ∧ t.lastRsp ≠ .ok) :=
  ⟨by cases Config.traceEn <;> decide, ⟨_, rfl, rfl⟩, ⟨_, rfl, by decide⟩⟩

theorem witness_ResetHoldsTheCore :
    ({ withState 5 with inputs := [.assertReset] } : State).inputs = .assertReset :: [] ∧
    (({ State.reset with rst := true, inputs := [.command 0 0, .releaseReset] } : State).rst = true ∧
      registersReset { State.reset with rst := true, inputs := [.command 0 0, .releaseReset] } ∧
      ∃ t, step { State.reset with rst := true, inputs := [.command 0 0, .releaseReset] } = .next t) ∧
    ({ State.reset with rst := true, inputs := [.releaseReset] } : State).inputs = .releaseReset :: [] :=
  ⟨rfl, ⟨rfl, by decide, _, rfl⟩, rfl⟩

theorem witness_AbandonedCommandLeavesOnlyReset :
    ({ withV1 with inputs := [.abandoned 0x100A 5] } : State).rst = false ∧
    ({ withV1 with inputs := [.abandoned 0x100A 5] } : State).inputs = .abandoned 0x100A 5 :: [] := ⟨rfl, rfl⟩

theorem witness_SboxIsTheAffineOfTheInverse : (0x53 : Byte) ≠ 0 := by decide

theorem witness_ShiftRowsRotatesEachRow : 4 ∣ (2 : Fin 4).val * 2 ∧ 4 ∣ (1 : Fin 4).val * 4 ∧ ¬ 4 ∣ (1 : Fin 4).val * 2 := by decide

theorem witness_MixColumnsIsLinearByColumn :
    (∀ r : Fin 4, (bytes 0xc6c6c6c6000000000000000000000000)[4 * (0 : Fin 4).val + r.val] = 0xc6) ∧
    (∀ r : Fin 4, (bytes 0x000000000000000000000000d4d4d4d5)[4 * (3 : Fin 4).val + r.val] =
      (bytes 0xffffffffffffffffffffffffd4d4d4d5)[4 * (3 : Fin 4).val + r.val]) := by decide +kernel

theorem witness_SequencerRunsTheSchedule : (0 : Nat) ≤ 40 ∧ (40 : Nat) ≤ 40 := by decide

theorem witness_KnownAnswerVector :
    (∀ k : Fin 11, ({ withV1 with din := 0x00112233445566778899aabbccddeeff } : State).rk[k] = some (v1Keys k)) ∧
    ({ withV1 with din := 0x00112233445566778899aabbccddeeff } : State).din = 0x00112233445566778899aabbccddeeff := by
  decide +kernel

theorem witness_EncbEqualsTheSteppedSequence : withV1.rst = false ∧ kall withV1 = true := by decide +kernel

/-- Two states whose din agrees on the first byte alone, and n = 1; and n = 16. -/
theorem witness_EncbDependsOnItsBlockAlone :
    1 ≤ (1 : BitVec 5).toNat ∧ (16 : BitVec 5).toNat ≤ 16 ∧ kall withV1 = true ∧
    ({ withV1 with din := 0xff00000000000000000000000000ffff } : State).rk = withV1.rk ∧
    (∀ i : Fin 16, i.val < (1 : BitVec 5).toNat →
      (bytes 0xff00000000000000000000000000ffff)[i] = (bytes 0xffaaaaaaaaaaaaaaaaaaaaaaaaaaaaaa)[i]) ∧
    (paddedLength [7, 8].length = paddedLength [7, 8, 0].length ∧ 0 < blockCount [7, 8] ∧
      window (paddedMessage [7, 8]) 0 = window (paddedMessage [7, 8, 0]) 0) := by decide +kernel

theorem witness_PaddedLengthIsTheSmallestMultiple : (16 : Nat) ∣ 16 ∧ (1 : Nat) ≤ 16 ∧ (16 : Nat) ∣ 32 ∧ (17 : Nat) ≤ 32 := by decide

/-- A 16-byte key and the state after reset. -/
theorem witness_CoreComputesEcb : (List.replicate 16 (0 : Byte)).length = 16 ∧ State.reset.rst = false ∧ State.reset.inputs = [] := by
  decide

theorem witness_NoPartialCiphertext :
    (List.replicate 15 (0 : Byte)).length ≠ 16 ∧ ([0] : List Byte) ≠ [] ∧ kall State.reset = false ∧
    (∃ r ∈ newResponses State.reset (drive (blockCommands [0] fun _ => 0) State.reset), r.rsp ≠ .ok) ∧
    (newResponses inReset (drive (blockCommands [0] fun _ => 0) inReset)).length < blockCount [0] ∧
    (encryptMessage (List.replicate 16 0) [] (fun _ => 0) none State.reset).1 = some [] ∧
    (some 0 : Option Nat) ≠ none ∧
    (∃ i : Fin 2, kall (drive (ldkeyCommands (Config.keySchedule (window (List.replicate 16 0) 0)))
      (Vector.replicate 2 inReset)[i]) = false) ∧
    (∃ i : Fin 2, newResponses (Vector.replicate 2 inReset)[i]
      (drive [blockCommand [0] (fun _ => 0) 0] (Vector.replicate 2 inReset)[i]) = []) ∧
    (∃ i : Fin 2, ∃ r ∈ newResponses (Vector.replicate 2 State.reset)[i]
      (drive [blockCommand [0] (fun _ => 0) 0] (Vector.replicate 2 State.reset)[i]), r.rsp ≠ .ok) ∧
    (List.replicate 16 (0 : Byte)).length = 16 :=
  ⟨by decide, by decide, by decide +kernel,
    ⟨⟨.keyUninit, Config.freeDout 0⟩, List.mem_singleton.mpr rfl, by decide⟩, by decide +kernel, rfl, by decide,
    ⟨0, by decide +kernel⟩, ⟨0, rfl⟩, ⟨0, ⟨.keyUninit, Config.freeDout 0⟩, List.mem_singleton.mpr rfl, by decide⟩, rfl⟩

/-- Two cores, the second in reset, loaded, after block 0 of a message has run on the first. -/
def afterFirstBlock : System 2 :=
  (runBlocksOn (List.replicate 20 5) (fun _ => 0) [(0, 0)]
    (loadAll (Config.keySchedule (window (List.replicate 16 0) 0)) (#v[State.reset, inReset]))).2

/-- A later block of the schedule: on the core in reset it gets no response, and with an index that is no block's, which makes an ENCB
of no bytes, a response that is not OK. -/
theorem witness_NoPartialCiphertext_later :
    List.replicate 20 (5 : Byte) ≠ [] ∧
    newResponses afterFirstBlock[(1 : Fin 2)]
      (drive [blockCommand (List.replicate 20 5) (fun _ => 0) 1] afterFirstBlock[(1 : Fin 2)]) = [] ∧
    ∃ r ∈ newResponses afterFirstBlock[(0 : Fin 2)]
      (drive [blockCommand (List.replicate 20 5) (fun _ => 0) 2] afterFirstBlock[(0 : Fin 2)]), r.rsp ≠ .ok := by
  decide +kernel

theorem witness_KnownWeaknessesAreKept :
    16 ∣ (List.replicate 32 (5 : Byte)).length ∧ ([1] : List Byte).length + 15 ≤ paddedLength ([1] : List Byte).length ∧
    (0 < blockCount (List.replicate 32 (5 : Byte)) ∧ 1 < blockCount (List.replicate 32 (5 : Byte)) ∧
      window (paddedMessage (List.replicate 32 5)) 0 = window (paddedMessage (List.replicate 32 5)) 1) := by decide +kernel

theorem witness_ParallelBlocksComputeEcb : (List.replicate 16 (0 : Byte)).length = 16 ∧
    (∀ i : Fin 2, (Vector.replicate 2 State.reset)[i].rst = false ∧ (Vector.replicate 2 State.reset)[i].inputs = []) ∧
    (([(1, 0), (0, 1)] : List (Nat × Fin 2)).map Prod.fst).Perm (List.range (blockCount (List.replicate 20 5))) := by
  decide +kernel

theorem witness_InstancesAreIndependent : (0 : Fin 2) ≠ 1 := by decide

theorem witness_PseudoInstructionsExpand :
    (List.replicate 352 'a').length = 352 ∧ (∃ bs, parseBytes (List.replicate 352 'a') = some bs) ∧
    parseBytes (chars "0aff") = some [0x0a, 0xff] :=
  ⟨List.length_replicate, ⟨List.replicate 176 0xaa, by decide +kernel⟩, by decide⟩

end Sys2Proof.Tests
end

/-! ## A step runs the decoded command (00_scope.md R10) -/

namespace Sys2Proof.Machine

/-- A ready core takes the oldest command of the queue and issues it. -/
theorem step_command {s : State} {w : CmdWord} {d : BusWord} {rest : List HostEvent} (hr : s.rst = false)
    (hi : s.inputs = .command w d :: rest) : step s = issue w d { s with inputs := rest } := by
  rw [step_event hr hi, runEvent]

theorem decodeTableWord_eq_some {nbits v : Nat} {i : Instr} :
    decodeTableWord nbits v = some i ↔ decode (tableWord nbits v) = .ok i := by
  unfold decodeTableWord
  cases decode (tableWord nbits v) <;> simp

/-- The word presented is the next one issued, and its operand is what the `din` port carries already. -/
theorem step_withFetchWord (s : State) (nbits v : Nat) :
    step (s.withFetchWord nbits v) = issue (tableWord nbits v) s.din { s with rst := false } :=
  step_command (presentWord_rst _ s) (presentWord_inputs _ s)

/-- Settles O6: a ready step issues the oldest command, and issuing is `exec` of the decoded word or BAD_FIELD. -/
theorem stepRunsTheDecodedCommand : Obligations.StepRunsTheDecodedCommand := by
  unfold Obligations.StepRunsTheDecodedCommand
  refine ⟨fun s w d rest hr hi => ⟨fun i hd => ?_, fun e hd => ?_⟩, fun s nbits v i hd => ?_⟩
  · rw [step_command hr hi, issue_of_ok hd]
  · rw [step_command hr hi, issue_of_error hd]
  · rw [step_withFetchWord, issue_of_ok (decodeTableWord_eq_some.mp hd)]

end Sys2Proof.Machine

namespace Sys2Proof.Machine

/-! ## One step, by the event it takes (10_state.md R25, R30, R32, R33; 70_reset_and_hazards.md R210) -/

/-- Every way a step can go: nothing to take, a command of a ready core, a command lost to a reset, or a change of `rst`. -/
theorem step_cases {s t : State} (h : step s = .next t) :
    (takeEvent s.rst s.inputs = none ∧ t = s) ∨
    (∃ w d rest, takeEvent s.rst s.inputs = some (.command w d, rest) ∧ s.rst = false ∧
      issue w d { s with inputs := rest } = .next t) ∨
    (∃ w d rest, takeEvent s.rst s.inputs = some (.abandoned w d, rest) ∧ t = abandon w d { s with inputs := rest }) ∨
    (∃ rest, takeEvent s.rst s.inputs = some (.assertReset, rest) ∧ t = enterReset { s with inputs := rest }) ∨
    ∃ rest, takeEvent s.rst s.inputs = some (.releaseReset, rest) ∧ t = leaveReset { s with inputs := rest } := by
  unfold step at h
  rcases he : takeEvent s.rst s.inputs with _ | ⟨ev, rest⟩ <;> rw [he] at h
  · cases h; exact .inl ⟨rfl, rfl⟩
  · refine .inr ?_
    cases ev with
    | command w d =>
      refine .inl ⟨w, d, rest, rfl, ?_, h⟩
      by_contra hr
      rw [Bool.not_eq_false] at hr
      rw [hr, takeEvent_inReset] at he
      rcases takeReset_isReset he with h' | h' <;> cases h'
    | abandoned w d => cases h; exact .inr (.inl ⟨w, d, rest, rfl, rfl⟩)
    | assertReset => cases h; exact .inr (.inr (.inl ⟨rest, rfl, rfl⟩))
    | releaseReset => cases h; exact .inr (.inr (.inr ⟨rest, rfl, rfl⟩))

theorem enterReset_registersReset (s : State) : registersReset (enterReset s) :=
  ⟨rfl, fun k => by simp, rfl, rfl, rfl⟩

theorem enterReset_safe (s : State) : safeState (enterReset s) :=
  ⟨rfl, fun _ => rfl, fun _ => enterReset_registersReset s⟩

theorem latchError_ne_ok (old : Rsp) {e : Rsp} (h : e ≠ .ok) : latchError old e ≠ .ok := by
  unfold latchError
  split <;> assumption

/-- A command of a ready core keeps it safe: it starts no block that it does not end, and its error goes to ERR too. -/
theorem issue_safe {w : CmdWord} {d : BusWord} {s t : State} (hr : s.rst = false) (hs : s.seq = none)
    (h : issue w d s = .next t) : safeState t := by
  have htr : t.rst = false := (issue_host h).1.trans hr
  suffices t.seq = none ∧ (t.err = .ok → t.lastRsp = .ok) from ⟨this.1, this.2, by simp [htr]⟩
  rcases issue_cases w d s with ⟨e, he, h'⟩ | ⟨u, h', hl, -, -, -, -, hq, -⟩ <;> cases h'.symm.trans h
  · exact ⟨hs, fun hok => absurd hok (latchError_ne_ok s.err he)⟩
  · exact ⟨hq.elim (fun hq => hq.trans hs) id, fun _ => hl⟩

/-- Settles O9, by the event the step takes: a reset makes the core safe, and a command is taken by a ready core only. -/
theorem everyStepKeepsSafeStates : Obligations.EveryStepKeepsSafeStates := by
  unfold Obligations.EveryStepKeepsSafeStates
  intro s t hsafe h
  have ⟨hseq, herr, _⟩ := hsafe
  rcases step_cases h with ⟨-, rfl⟩ | ⟨w, d, rest, -, hr, hw⟩ | ⟨w, d, rest, -, rfl⟩ | ⟨rest, -, rfl⟩ | ⟨rest, -, rfl⟩
  · exact hsafe
  · exact issue_safe (s := { s with inputs := rest }) hr hseq hw
  · exact enterReset_safe _
  · exact enterReset_safe _
  · exact ⟨hseq, herr, by simp⟩

/-! ## The reset values (10_state.md R33) -/

theorem leaveReset_enterReset_registersReset (s : State) : registersReset (leaveReset (enterReset s)) :=
  enterReset_registersReset s

theorem leaveReset_enterReset_reset : leaveReset (enterReset State.reset) = State.reset := rfl

theorem reset_registersReset : registersReset State.reset := leaveReset_enterReset_registersReset State.reset

/-- With every register at its reset value no valid bit is set. -/
theorem registersReset_validBits {s : State} (h : registersReset s) :
    stv s = false ∧ (∀ k : Fin 11, kv s k = false) ∧ kall s = false := by
  obtain ⟨hst, hrk, -⟩ := h
  have hkv : ∀ k : Fin 11, kv s k = false := fun k => by simp only [kv, hrk k, Option.isSome_none]
  refine ⟨by simp only [stv, hst, Option.isSome_none], hkv, ?_⟩
  rw [← Bool.not_eq_true, kall_eq_true]
  exact fun hall => absurd (hall 0) (by simp [hkv 0])

/-- Settles O10: after reset no register holds an error or a block in progress, and `rst` is 0. -/
theorem resetStateIsSafe : Obligations.ResetStateIsSafe :=
  ⟨reset_seq, fun _ => reset_lastRsp, fun _ => reset_registersReset⟩

/-- Settles O36: leaving a reset changes `rst` alone, so every register keeps the reset value that entering it gave. -/
theorem resetValuesAreAsListed : Obligations.ResetValuesAreAsListed := by
  unfold Obligations.ResetValuesAreAsListed
  refine ⟨fun s => ?_, leaveReset_enterReset_reset, reset_registersReset, rfl, rfl, rfl, rfl⟩
  have hreg := leaveReset_enterReset_registersReset s
  obtain ⟨hstv, hkv, hkall⟩ := registersReset_validBits hreg
  exact ⟨rfl, rfl, hreg, hstv, hkv, hkall, rfl⟩

/-! ## The 176-byte view of the round keys (10_state.md R23, 43_transfer.md R124) -/

/-- Byte `16k + i` of the expanded key is byte `i` of round key `k`. -/
theorem expandedByte_eq (E : ExpandedKey) (k : Fin 11) (i : Fin 16) :
    expandedByte E ⟨16 * k.val + i.val, by omega⟩ = (E k)[i] := by
  have hk : (16 * k.val + i.val) / 16 = k.val := by omega
  have hi : (16 * k.val + i.val) % 16 = i.val := by omega
  simp only [expandedByte, hk, hi, Fin.eta, Fin.getElem_fin]

/-- Slicing the view gives the round keys back. -/
theorem sliceKey_ofFn_expandedByte (E : ExpandedKey) : sliceKey (List.ofFn (expandedByte E)) = E := by
  funext k
  apply Vector.ext
  intro i hi
  have hlt : 16 * k.val + i < (List.ofFn (expandedByte E)).length := by rw [List.length_ofFn]; omega
  rw [sliceKey, Vector.getElem_ofFn, List.getD_eq_getElem _ _ hlt, List.getElem_ofFn]
  exact expandedByte_eq E k ⟨i, hi⟩

/-- Settles O47: division by 16 takes a byte's place in the view apart into its round key and its place in it. -/
theorem expandedKeyIsTheRoundKeysInOrder : Obligations.ExpandedKeyIsTheRoundKeysInOrder :=
  fun E => ⟨expandedByte_eq E, sliceKey_ofFn_expandedByte E⟩

/-! ## STATUS (10_state.md R28) -/

/-- Bit `k` of KV[10:0] is the valid bit of round key `k`. -/
theorem kvBits_getLsbD (s : State) (k : Fin 11) : (kvBits s).getLsbD k.val = kv s k := by
  fin_cases k <;> simp only [kvBits, BitVec.getLsbD_append, BitVec.getLsbD_ofBool] <;> simp

theorem status_ready (s : State) : (status s).getLsbD 0 = !s.rst := by
  simp only [status, ready, BitVec.getLsbD_append, BitVec.getLsbD_ofBool]
  simp

theorem status_stv (s : State) : (status s).getLsbD 1 = stv s := by
  simp only [status, BitVec.getLsbD_append, BitVec.getLsbD_ofBool]
  simp

theorem status_kv (s : State) (k : Fin 11) : (status s).getLsbD (2 + k.val) = kv s k := by
  have h0 : ¬ 2 + k.val < 1 := by omega
  have h1 : ¬ 2 + k.val - 1 < 1 := by omega
  have h2 : 2 + k.val - 1 - 1 = k.val := by omega
  simp only [status, BitVec.getLsbD_append, h0, h1, h2, k.isLt, if_true, if_false, kvBits_getLsbD]

theorem status_kall (s : State) : (status s).getLsbD 13 = kall s := readsKall_eq_kall s

theorem status_reservedLow (s : State) : (status s).extractLsb' 14 2 = 0 := by
  unfold status
  simp (disch := omega) only [BitVec.extractLsb'_append_eq_of_add_le, BitVec.extractLsb'_append_eq_of_le]
  rfl

theorem status_err (s : State) : (status s).extractLsb' 16 4 = rspCode s.err := by
  unfold status
  simp (disch := omega) only [BitVec.extractLsb'_append_eq_of_add_le, BitVec.extractLsb'_append_eq_of_le]
  exact BitVec.extractLsb'_eq_self

theorem status_lastRsp (s : State) : (status s).extractLsb' 20 4 = rspCode s.lastRsp := by
  unfold status
  simp (disch := omega) only [BitVec.extractLsb'_append_eq_of_add_le, BitVec.extractLsb'_append_eq_of_le]
  exact BitVec.extractLsb'_eq_self

theorem status_reservedHigh (s : State) : (status s).extractLsb' 24 8 = 0 := by
  unfold status
  simp (disch := omega) only [BitVec.extractLsb'_append_eq_of_le]
  rfl

/-- STATUS of a ready core with all round keys loaded and no error: STV is the one field not fixed. -/
theorem status_of_kall {s : State} (hl : s.lastRsp = .ok) (he : s.err = .ok) (hr : s.rst = false) (h : kall s = true) :
    status s = if stv s then 0x00003FFF else 0x00003FFD := by
  simp only [status, kvBits, ready, hl, he, hr, h, kall_eq_true.mp h]
  cases stv s <;> decide

theorem kall_ofFn_some {s : State} {E : ExpandedKey} (h : s.rk = Vector.ofFn fun k => some (E k)) : kall s = true :=
  kall_eq_true.mpr fun k => by simp [kv, h]

/-- Settles O35, one lemma for each field; the examples are STATUS of a core that holds no error. -/
theorem statusWordHasItsFields : Obligations.StatusWordHasItsFields := by
  unfold Obligations.StatusWordHasItsFields
  refine ⟨fun s => ⟨status_ready s, status_stv s, status_kv s, ?_, status_reservedLow s, status_err s, status_lastRsp s,
    status_reservedHigh s⟩, fun r => by cases r <;> rfl, by decide, fun E x => ⟨?_, ?_⟩⟩
  · rw [status_kall]
    exact kall_eq_true
  · exact status_of_kall rfl rfl rfl (kall_ofFn_some rfl)
  · exact status_of_kall rfl rfl rfl (kall_ofFn_some rfl)

/-! ## What a command does, as data (10_state.md R21, R22, R25; 60_exceptions.md R183 to R185) -/

/-- All that a command can do to the core. -/
structure Effect where
  /-- The response code. -/
  code : Rsp
  /-- The value left in STATE and returned on dout; none when STATE is not written and dout is UNSPEC. -/
  result : Option Block := none
  /-- The round key written, with its index. -/
  key : Option (Fin 11 × Block) := none
  /-- The events for the trace port, oldest first. -/
  events : List TraceEvent := []
  /-- A block was run to its end. -/
  endsBlock : Bool := false

namespace Effect

/-- Nothing but the response: NOP, and every error. -/
def respond (r : Rsp) : Effect := { code := r }

/-- STATE takes the value `x`, and the response carries it. -/
def write (x : Block) (es : List TraceEvent) : Effect := { code := .ok, result := some x, events := es }

/-- Round key `k` takes the value `x`. -/
def load (k : Fin 11) (x : Block) : Effect := { code := .ok, key := some (k, x) }

/-- The effect of an operation that a check comes before. -/
def after {α : Type} (check : Except Rsp α) (f : α → Effect) : Effect :=
  match check with
  | .error e => respond e
  | .ok a => f a

/-- The dout of the response: STATE, or the free value of draw `n`. -/
def dout (a : Effect) (n : Nat) : BusWord :=
  match a.result with
  | some x => word x
  | none => Config.freeDout n

/-- The RK file after the effect. -/
def keys (a : Effect) (rk : Vector (Option Block) 11) : Vector (Option Block) 11 :=
  match a.key with
  | some (k, x) => rk.set k (some x)
  | none => rk

/-- The state after the effect. `exec_eq_effect` says that commands do this and no more. -/
def apply (a : Effect) (s : State) : State :=
  { s with
    stateReg := a.result.or s.stateReg
    rk := a.keys s.rk
    err := latchError s.err a.code
    lastRsp := a.code
    seq := if a.endsBlock then none else s.seq
    responses := s.responses ++ [⟨a.code, a.dout s.draws⟩]
    trace := s.trace ++ onTracePort a.events
    draws := if a.result.isSome then s.draws else s.draws + 1 }

end Effect

/-- An elementary command (41_transforms.md R92, R94, R97, R101): its value and its one event. -/
def elementaryEffect (r : BitVec 4) (ph : Phase) (y : Block) : Effect :=
  .write y [⟨traceTag r .standalone ph, word y⟩]

/-- RND (42_rounds.md R111). -/
def roundEffect (k : BitVec 4) (x key : Block) : Effect :=
  .write (rndf x key)
    [⟨traceTag k .inRound .sub, word (subf x)⟩, ⟨traceTag k .inRound .shr, word (shrf (subf x))⟩,
      ⟨traceTag k .inRound .mix, word (mixf (shrf (subf x)))⟩, ⟨traceTag k .inRound .ark, word (rndf x key)⟩]

/-- FRND (42_rounds.md R113). -/
def finalRoundEffect (k : BitVec 4) (x key : Block) : Effect :=
  .write (frndf x key)
    [⟨traceTag k .inRound .sub, word (subf x)⟩, ⟨traceTag k .inRound .shr, word (shrf (subf x))⟩,
      ⟨traceTag k .inRound .ark, word (frndf x key)⟩]

/-- ENCB on the padded block `p` (44_block_driver.md R142). -/
def blockEffect (p : Block) (E : ExpandedKey) : Effect :=
  { Effect.write (encf p E) (scheduleEvents E schedule p) with endsBlock := true }

/-- The effect of each command. It reads STATE, RK and din, and nothing else of the state. -/
def effect (i : Instr) (s : State) : Effect :=
  match i with
  | .nop => .respond .ok
  | .ldst => .write (bytes s.din) []
  | .rdst => .after (stateOperand s) fun x => .write x []
  | .ldrk k =>
    match keyIndex k with
    | none => .respond .badField
    | some j => .load j (bytes s.din)
  | .ark k => .after (keyOperand k s) fun key => .after (stateOperand s) fun x => elementaryEffect k .ark (arkf x key)
  | .sub => .after (stateOperand s) fun x => elementaryEffect 0 .sub (subf x)
  | .shr => .after (stateOperand s) fun x => elementaryEffect 0 .shr (shrf x)
  | .mix => .after (stateOperand s) fun x => elementaryEffect 0 .mix (mixf x)
  | .rnd k => .after (keyOperand k s) fun key => .after (stateOperand s) fun x => roundEffect k x key
  | .frnd k => .after (keyOperand k s) fun key => .after (stateOperand s) fun x => finalRoundEffect k x key
  | .encb n => .after (blockOperand n s) fun p => .after (allKeysOperand s) fun E => blockEffect p E
  | .reservedB _ => .respond .illegalOp
  | .reservedC _ => .respond .illegalOp
  | .reservedD _ => .respond .illegalOp
  | .reservedE _ => .respond .illegalOp
  | .reservedF _ => .respond .illegalOp

/-! ### Commands and words do what their effect says -/

@[simp] theorem latchError_ok (old : Rsp) : latchError old .ok = old := by
  cases old <;> rfl

namespace Effect

theorem apply_respond_ok (s : State) : (respond .ok).apply s = respondUnspec s := by
  simp [apply, respond, respondUnspec, keys, dout, onTracePort_nil]

theorem apply_respond (e : Rsp) (s : State) : (respond e).apply s = takeError e s := by
  simp [apply, respond, takeError, keys, dout, onTracePort_nil]

theorem apply_load (k : Fin 11) (x : Block) (s : State) :
    (load k x).apply s = respondUnspec (writeKey k x s) := by
  simp [apply, load, respondUnspec, writeKey, keys, dout, onTracePort_nil]

theorem apply_write (x : Block) (es : List TraceEvent) (s : State) :
    (write x es).apply s = respondData x { s with stateReg := some x, trace := s.trace ++ onTracePort es } := by
  simp [apply, write, respondData, keys, dout]

/-- An outcome is that of an effect after a check when it is so for each answer of the check. -/
theorem eq_next_apply_after {α : Type} {check : Except Rsp α} {f : α → Effect} {s : State}
    {o : Host.Outcome State Fault Refusal} (herr : ∀ e, check = .error e → o = .next (takeError e s))
    (hok : ∀ a, check = .ok a → o = .next ((f a).apply s)) : o = .next ((after check f).apply s) := by
  rcases check with e | a
  · rw [herr e rfl, after, apply_respond]
  · exact hok a rfl

end Effect

theorem apply_elementaryEffect (r : BitVec 4) (ph : Phase) (y : Block) (s : State) :
    (elementaryEffect r ph y).apply s = finishElementary r ph y s := Effect.apply_write y _ s

theorem apply_roundEffect (k : BitVec 4) (x key : Block) (s : State) :
    (roundEffect k x key).apply s = respondData (rndf x key) (writeState (rndf x key) (emitRound k x key s)) := by
  rw [roundEffect, Effect.apply_write]
  simp only [← traceEvents_append_onTracePort, onTracePort_nil, List.append_nil, ← List.append_assoc]
  rfl

theorem apply_finalRoundEffect (k : BitVec 4) (x key : Block) (s : State) :
    (finalRoundEffect k x key).apply s =
      respondData (frndf x key) (writeState (frndf x key) (emitFinalRound k x key s)) := by
  rw [finalRoundEffect, Effect.apply_write]
  simp only [← traceEvents_append_onTracePort, onTracePort_nil, List.append_nil, ← List.append_assoc]
  rfl

theorem apply_blockEffect (p : Block) (E : ExpandedKey) (s : State) :
    (blockEffect p E).apply s = respondState (seqRun E seqLength (seqStart p s)) := by
  rw [seqRun_block]
  simp [blockEffect, Effect.write, Effect.apply, Effect.keys, Effect.dout, respondState, respondData]

/-- A value that STATE holds already is returned and changes nothing. -/
theorem apply_write_of_some {s : State} {x : Block} (h : s.stateReg = some x) :
    (Effect.write x []).apply s = respondData x s := by
  rw [Effect.apply_write, onTracePort_nil, List.append_nil, ← h]

/-- Every command does what its effect says, and nothing else. -/
theorem exec_eq_effect (i : Instr) (s : State) : exec i s = .next ((effect i s).apply s) := by
  cases i with
  | nop => rw [effect, Effect.apply_respond_ok, exec, execNop]
  | ldst => rw [effect, Effect.apply_write, onTracePort_nil, List.append_nil]; rfl
  | rdst =>
    refine Effect.eq_next_apply_after (fun e h => by simp only [exec, execRdst, h]) fun x hx => ?_
    rcases stateOperand_cases s with ⟨-, h⟩ | ⟨y, hy, h⟩ <;> cases h.symm.trans hx
    rw [exec_rdst_of_some hy, apply_write_of_some hy]
  | ldrk k =>
    rcases hk : keyIndex k with _ | j
    · simp only [exec, execLdrk, effect, hk, Effect.apply_respond]
    · simp only [exec_ldrk_of_index hk, effect, hk, Effect.apply_load]
  | sub | shr | mix =>
    refine Effect.eq_next_apply_after (fun e h => by simp only [exec, execSub, execShr, execMix, h]) fun x hx => ?_
    simp only [exec_sub_of_ok hx, exec_shr_of_ok hx, exec_mix_of_ok hx, apply_elementaryEffect]
  | ark k | rnd k | frnd k =>
    refine Effect.eq_next_apply_after (fun e h => by simp only [exec, execArk, execRnd, execFrnd, h]) fun key hk => ?_
    refine Effect.eq_next_apply_after (fun e h => by simp only [exec, execArk, execRnd, execFrnd, hk, h]) fun x hx => ?_
    simp only [exec_ark_of_ok hk hx, exec_rnd_of_ok hk hx, exec_frnd_of_ok hk hx, apply_elementaryEffect,
      apply_roundEffect, apply_finalRoundEffect]
  | encb n =>
    refine Effect.eq_next_apply_after (fun e h => by simp only [exec, execEncb, h]) fun p hp => ?_
    refine Effect.eq_next_apply_after (fun e h => by simp only [exec, execEncb, hp, h]) fun E hE => ?_
    simp only [exec, execEncb, hp, hE, apply_blockEffect]
  | reservedB _ | reservedC _ | reservedD _ | reservedE _ | reservedF _ =>
    exact congrArg Host.Outcome.next (Effect.apply_respond .illegalOp s).symm

/-- The effect of a command word: that of its command, or BAD_FIELD (30_encoding.md R67). -/
def wordEffect (w : CmdWord) (s : State) : Effect :=
  match decode w with
  | .ok i => effect i s
  | .error _ => .respond .badField

theorem wordEffect_of_ok {w : CmdWord} {i : Instr} (h : decode w = .ok i) (s : State) : wordEffect w s = effect i s := by
  rw [wordEffect, h]

theorem wordEffect_of_error {w : CmdWord} {e : DecodeError} (h : decode w = .error e) (s : State) :
    wordEffect w s = .respond .badField := by
  rw [wordEffect, h]

/-- Every word does what its effect says, with its operand on the `din` port. -/
theorem issue_eq_effect (w : CmdWord) (d : BusWord) (s : State) :
    issue w d s = .next ((wordEffect w { s with din := d }).apply { s with din := d }) := by
  rcases h : decode w with e | i
  · rw [issue_of_error h, wordEffect_of_error h, Effect.apply_respond]
  · rw [issue_of_ok h, wordEffect_of_ok h, exec_eq_effect]

/-! ### The parts of an effect -/

namespace Effect

@[simp] theorem apply_stateReg (a : Effect) (s : State) : (a.apply s).stateReg = a.result.or s.stateReg := rfl
@[simp] theorem apply_rk (a : Effect) (s : State) : (a.apply s).rk = a.keys s.rk := rfl
@[simp] theorem apply_err (a : Effect) (s : State) : (a.apply s).err = latchError s.err a.code := rfl
@[simp] theorem apply_lastRsp (a : Effect) (s : State) : (a.apply s).lastRsp = a.code := rfl
@[simp] theorem apply_seq (a : Effect) (s : State) :
    (a.apply s).seq = if a.endsBlock then none else s.seq := rfl
@[simp] theorem apply_rst (a : Effect) (s : State) : (a.apply s).rst = s.rst := rfl
@[simp] theorem apply_inputs (a : Effect) (s : State) : (a.apply s).inputs = s.inputs := rfl
@[simp] theorem apply_din (a : Effect) (s : State) : (a.apply s).din = s.din := rfl
@[simp] theorem apply_responses (a : Effect) (s : State) :
    (a.apply s).responses = s.responses ++ [⟨a.code, a.dout s.draws⟩] := rfl
@[simp] theorem apply_trace (a : Effect) (s : State) : (a.apply s).trace = s.trace ++ onTracePort a.events := rfl
@[simp] theorem apply_draws (a : Effect) (s : State) :
    (a.apply s).draws = if a.result.isSome then s.draws else s.draws + 1 := rfl

theorem keys_of_none {a : Effect} (h : a.key = none) (rk : Vector (Option Block) 11) : a.keys rk = rk := by
  rw [keys, h]

theorem keys_getElem_of_key {a : Effect} {k : Fin 11} {x : Block} (h : a.key = some (k, x))
    (rk : Vector (Option Block) 11) : (a.keys rk)[k] = some x := by
  simp [keys, h]

theorem keys_getElem_of_ne {a : Effect} {k : Fin 11} (h : ∀ x, a.key ≠ some (k, x)) (rk : Vector (Option Block) 11) :
    (a.keys rk)[k] = rk[k] := by
  rcases ha : a.key with _ | ⟨j, x⟩
  · rw [keys_of_none ha]
  · have hne : j.val ≠ k.val := fun hjk => h x (by rw [ha, Fin.ext hjk])
    simp [keys, ha, hne]

/-- STV after an effect: a result sets it and nothing clears it. -/
theorem stv_apply (a : Effect) (s : State) : stv (a.apply s) = true ↔ a.result ≠ none ∨ stv s = true := by
  rcases h : a.result with _ | x <;> simp [stv, h]

/-- KV[k] after an effect: writing round key `k` sets it and nothing clears it. -/
theorem kv_apply (a : Effect) (s : State) (k : Fin 11) :
    kv (a.apply s) k = true ↔ (∃ x, a.key = some (k, x)) ∨ kv s k = true := by
  by_cases h : ∃ x, a.key = some (k, x)
  · obtain ⟨x, hx⟩ := h
    simp only [kv, apply_rk, keys_getElem_of_key hx, Option.isSome_some, hx, Option.some.injEq, Prod.mk.injEq,
      true_and, exists_eq', true_or]
  · simp only [h, false_or, kv, apply_rk, keys_getElem_of_ne (not_exists.mp h)]

end Effect

/-! ### Which command has which effect -/

/-- After the check of STATE: an error, or STATE was loaded and is written. -/
theorem after_stateOperand_cases (s : State) {f : Block → Effect} (hf : ∀ x, ∃ y es, f x = .write y es) :
    (∃ e, .after (stateOperand s) f = Effect.respond e ∧ e ≠ .ok) ∨
    ∃ y es, s.stateReg ≠ none ∧ .after (stateOperand s) f = Effect.write y es := by
  rcases stateOperand_cases s with ⟨-, h⟩ | ⟨x, hx, h⟩ <;> rw [h]
  · exact .inl ⟨.stateUninit, rfl, by decide⟩
  · obtain ⟨y, es, hy⟩ := hf x
    exact .inr ⟨y, es, by simp [hx], hy⟩

/-- The same with the check of a round key before it. -/
theorem after_keyOperand_cases (k : BitVec 4) (s : State) {f : Block → Block → Effect}
    (hf : ∀ key x, ∃ y es, f key x = .write y es) :
    (∃ e, .after (keyOperand k s) (fun key => .after (stateOperand s) (f key)) = Effect.respond e ∧ e ≠ .ok) ∨
    ∃ y es, s.stateReg ≠ none ∧ .after (keyOperand k s) (fun key => .after (stateOperand s) (f key)) = Effect.write y es := by
  rcases keyOperand_cases k s with ⟨-, h⟩ | ⟨-, -, -, h⟩ | ⟨-, key, -, -, h⟩ <;> rw [h]
  · exact .inl ⟨.badField, rfl, by decide⟩
  · exact .inl ⟨.keyUninit, rfl, by decide⟩
  · exact after_stateOperand_cases s (hf key)

/-- What the effect of a command can be: a response alone (NOP and every error), STATE written where it was loaded, a round
key (LDRK), or STATE written whatever it was (LDST and ENCB). -/
theorem effect_cases (i : Instr) (s : State) :
    (∃ r, effect i s = .respond r ∧ (i = .nop ∨ r ≠ .ok)) ∨
    (∃ y es, s.stateReg ≠ none ∧ effect i s = .write y es ∧ (i = .rdst → s.stateReg = some y)) ∨
    (∃ b j, i = .ldrk b ∧ j.val = b.toNat ∧ effect i s = .load j (bytes s.din)) ∨
    (i = .ldst ∧ effect i s = .write (bytes s.din) []) ∨
    ∃ n p E, i = .encb n ∧ effect i s = blockEffect p E := by
  cases i with
  | nop => exact .inl ⟨.ok, rfl, .inl rfl⟩
  | ldst => exact .inr (.inr (.inr (.inl ⟨rfl, rfl⟩)))
  | rdst =>
    rcases stateOperand_cases s with ⟨-, h⟩ | ⟨x, hx, h⟩ <;> rw [effect, h]
    · exact .inl ⟨.stateUninit, rfl, .inr (by decide)⟩
    · exact .inr (.inl ⟨x, [], by simp [hx], rfl, fun _ => hx⟩)
  | ldrk b =>
    rcases hb : keyIndex b with _ | j
    · exact .inl ⟨.badField, by simp only [effect, hb], .inr (by decide)⟩
    · exact .inr (.inr (.inl ⟨b, j, rfl, keyIndex_eq_some hb, by simp only [effect, hb]⟩))
  | sub | shr | mix =>
    rcases after_stateOperand_cases s (fun x => ⟨_, _, rfl⟩) with ⟨e, h, he⟩ | ⟨y, es, hs, h⟩
    · exact .inl ⟨e, h, .inr he⟩
    · exact .inr (.inl ⟨y, es, hs, h, nofun⟩)
  | ark k | rnd k | frnd k =>
    rcases after_keyOperand_cases k s (fun key x => ⟨_, _, rfl⟩) with ⟨e, h, he⟩ | ⟨y, es, hs, h⟩
    · exact .inl ⟨e, h, .inr he⟩
    · exact .inr (.inl ⟨y, es, hs, h, nofun⟩)
  | encb n =>
    rw [effect]
    by_cases hn : 1 ≤ n.toNat ∧ n.toNat ≤ 16
    · rw [blockOperand_of_mem s hn]
      rcases hk : kall s
      · exact .inl ⟨.keyUninit, by rw [allKeysOperand_of_not_kall hk]; rfl, .inr (by decide)⟩
      · obtain ⟨E, hE⟩ := exists_keys_of_kall hk
        exact .inr (.inr (.inr (.inr ⟨n, _, E, rfl, by rw [allKeysOperand_of_loaded hE]; rfl⟩)))
    · exact .inl ⟨.badField, by rw [blockOperand_of_not_mem s hn]; rfl, .inr (by decide)⟩
  | reservedB _ | reservedC _ | reservedD _ | reservedE _ | reservedF _ => exact .inl ⟨.illegalOp, rfl, .inr (by decide)⟩

/-! ## Who reads and writes STATE and RK (10_state.md R21, R22) -/

theorem effect_ldrk {b : BitVec 4} {k : Fin 11} (h : k.val = b.toNat) (s : State) :
    effect (.ldrk b) s = .load k (bytes s.din) := by
  simp only [effect, keyIndex_of_le h]

/-- A round key is written by LDRK of its index alone. -/
theorem effect_key_eq_some {i : Instr} {s : State} {k : Fin 11} {x : Block} (h : (effect i s).key = some (k, x)) :
    ∃ b, i = .ldrk b ∧ k.val = b.toNat := by
  rcases effect_cases i s with ⟨r, he, -⟩ | ⟨y, es, -, he, -⟩ | ⟨b, j, hi, hj, he⟩ | ⟨-, he⟩ | ⟨n, p, E, -, he⟩ <;>
    rw [he] at h <;> cases h
  exact ⟨b, hi, hj⟩

/-- NOP, RDST, LDRK and a failed command leave STATE as it is. -/
theorem effect_keeps_stateReg {i : Instr} {s : State}
    (h : i = .nop ∨ i = .rdst ∨ (∃ k, i = .ldrk k) ∨ (effect i s).code ≠ .ok) :
    (effect i s).result.or s.stateReg = s.stateReg := by
  rcases effect_cases i s with ⟨r, he, -⟩ | ⟨y, es, -, he, hrd⟩ | ⟨b, j, -, -, he⟩ | ⟨rfl, he⟩ | ⟨n, p, E, rfl, he⟩
  · rw [he]; rfl
  · rcases h with rfl | rfl | ⟨k, rfl⟩ | h
    · cases he
    · rw [he, hrd rfl]; rfl
    · rcases hk : keyIndex k with _ | j <;> simp only [effect, hk] at he <;> cases he
    · exact absurd (by rw [he]; rfl) h
  · rw [he]; rfl
  · rw [he] at h; simp [Effect.write] at h
  · rw [he] at h; simp [blockEffect, Effect.write] at h

/-- LDST and ENCB write STATE when they do not fail. -/
theorem effect_result_of_writer {i : Instr} {s : State} (hok : (effect i s).code = .ok) (hi : i = .ldst ∨ ∃ n, i = .encb n) :
    ∃ y, (effect i s).result = some y := by
  rcases effect_cases i s with ⟨r, he, hr⟩ | ⟨y, es, -, he, -⟩ | ⟨b, j, hb, -, -⟩ | ⟨-, he⟩ | ⟨n, p, E, -, he⟩
  · rw [he] at hok
    rcases hr with rfl | hr
    · simp at hi
    · exact absurd hok hr
  · exact ⟨y, by rw [he]; rfl⟩
  · simp [hb] at hi
  · exact ⟨_, by rw [he]; rfl⟩
  · exact ⟨_, by rw [he]; rfl⟩

/-- NOP, LDST, LDRK and ENCB do not read STATE. -/
theorem effect_with_stateReg {i : Instr} (hi : i = .nop ∨ i = .ldst ∨ (∃ k, i = .ldrk k) ∨ ∃ n, i = .encb n) (s : State)
    (old : Option Block) : effect i { s with stateReg := old } = effect i s := by
  rcases hi with rfl | rfl | ⟨k, rfl⟩ | ⟨n, rfl⟩ <;> rfl

theorem keyOperand_with_rk {b : BitVec 4} {s : State} {keys : Vector (Option Block) 11}
    (h : ∀ k : Fin 11, k.val = b.toNat → keys[k] = s.rk[k]) : keyOperand b { s with rk := keys } = keyOperand b s := by
  rcases hb : keyIndex b with _ | k
  · simp only [keyOperand, hb]
  · simp only [keyOperand, hb, h k (keyIndex_eq_some hb)]

/-- ARK, RND and FRND read the round key that RSEL names, ENCB all of them, and every other command none. -/
theorem effect_with_rk {i : Instr} {s : State} {keys : Vector (Option Block) 11}
    (hkey : ∀ (b : BitVec 4) (k : Fin 11), (i = .ark b ∨ i = .rnd b ∨ i = .frnd b) → k.val = b.toNat → keys[k] = s.rk[k])
    (hall : ∀ n, i = .encb n → keys = s.rk) : effect i { s with rk := keys } = effect i s := by
  have hst : stateOperand { s with rk := keys } = stateOperand s := rfl
  cases i with
  | ark b | rnd b | frnd b => simp only [effect, keyOperand_with_rk fun k => hkey b k (by simp), hst]
  | encb n => rw [hall n rfl]
  | nop | ldst | rdst | ldrk _ | sub | shr | mix => rfl
  | reservedB _ | reservedC _ | reservedD _ | reservedE _ | reservedF _ => rfl

/-- Settles O29: a command is its effect, which writes as listed, and which is the same for two states that differ in what it
does not read. -/
theorem registersAreTouchedOnlyAsListed : Obligations.RegistersAreTouchedOnlyAsListed := by
  unfold Obligations.RegistersAreTouchedOnlyAsListed
  refine ⟨fun i s t h => ?_, fun i s old hi => ?_, fun i s keys hkey hall => ?_⟩
  · rw [exec_eq_effect] at h
    cases h
    refine ⟨effect_keeps_stateReg, fun hi => Effect.keys_of_none ?_ s.rk⟩
    rcases hk : (effect i s).key with _ | ⟨k, x⟩
    · rfl
    · obtain ⟨b, hb, -⟩ := effect_key_eq_some hk
      exact absurd hb (hi b)
  · refine ⟨_, _, exec_eq_effect i s, exec_eq_effect i _, ?_⟩
    rw [effect_with_stateReg hi s old]
    refine ⟨rfl, rfl, rfl, rfl, rfl, fun hok hw => ?_⟩
    obtain ⟨y, hy⟩ := effect_result_of_writer hok hw
    rw [Effect.apply_stateReg, Effect.apply_stateReg, hy, Option.some_or, Option.some_or]
  · refine ⟨_, _, exec_eq_effect i s, exec_eq_effect i _, ?_⟩
    rw [effect_with_rk hkey hall]
    refine ⟨rfl, rfl, rfl, rfl, rfl, fun b k hb hk => ?_, fun k hk => ?_⟩
    · subst hb
      have hload : (effect (.ldrk b) s).key = some (k, bytes s.din) := by rw [effect_ldrk hk]; rfl
      rw [Effect.apply_rk, Effect.apply_rk, Effect.keys_getElem_of_key hload, Effect.keys_getElem_of_key hload]
    · refine Effect.keys_getElem_of_ne (fun x hx => ?_) keys
      obtain ⟨b, hb, hkb⟩ := effect_key_eq_some hx
      exact hk b hb hkb

/-! ## Valid bits (10_state.md R24) -/

/-- A word that gives STATE its first value is one of LDST or ENCB. -/
theorem wordEffect_result_of_unloaded {w : CmdWord} {s : State} (hs : s.stateReg = none)
    (h : (wordEffect w s).result ≠ none) : ∃ i, decode w = .ok i ∧ (i = .ldst ∨ ∃ n, i = .encb n) := by
  rcases hd : decode w with e | i
  · exact absurd (by rw [wordEffect_of_error hd]; rfl) h
  · rw [wordEffect_of_ok hd] at h
    refine ⟨i, rfl, ?_⟩
    rcases effect_cases i s with ⟨r, he, -⟩ | ⟨y, es, hs', -, -⟩ | ⟨b, j, -, -, he⟩ | ⟨hi, -⟩ | ⟨n, p, E, hi, -⟩
    · exact absurd (by rw [he]; rfl) h
    · exact absurd hs hs'
    · exact absurd (by rw [he]; rfl) h
    · exact .inl hi
    · exact .inr ⟨n, hi⟩

theorem wordEffect_key_eq_some {w : CmdWord} {s : State} {k : Fin 11} {x : Block}
    (h : (wordEffect w s).key = some (k, x)) : ∃ b, decode w = .ok (.ldrk b) ∧ k.val = b.toNat := by
  rcases hd : decode w with e | i
  · rw [wordEffect_of_error hd] at h
    cases h
  · rw [wordEffect_of_ok hd] at h
    obtain ⟨b, rfl, hk⟩ := effect_key_eq_some h
    exact ⟨b, rfl, hk⟩

/-- A word clears no valid bit, sets STV only as LDST or ENCB, and sets KV[k] only as LDRK k. -/
theorem issue_validBits {w : CmdWord} {d : BusWord} {s t : State} (h : issue w d s = .next t) :
    (stv s = true → stv t = true) ∧ (∀ k : Fin 11, kv s k = true → kv t k = true) ∧
    (stv s = false → stv t = true → ∃ i, decode w = .ok i ∧ (i = .ldst ∨ ∃ n, i = .encb n)) ∧
    ∀ k : Fin 11, kv s k = false → kv t k = true → ∃ b, decode w = .ok (.ldrk b) ∧ k.val = b.toNat := by
  rw [issue_eq_effect] at h
  cases h
  refine ⟨fun hs => (Effect.stv_apply _ _).mpr (.inr hs), fun k hk => (Effect.kv_apply _ _ k).mpr (.inr hk),
    fun hs ht => ?_, fun k hk ht => ?_⟩
  · rcases (Effect.stv_apply _ _).mp ht with ht | ht
    · exact wordEffect_result_of_unloaded (by simpa [stv] using hs) ht
    · exact absurd (hs.symm.trans ht) (by decide)
  · rcases (Effect.kv_apply _ _ k).mp ht with ⟨x, hx⟩ | ht
    · exact wordEffect_key_eq_some hx
    · exact absurd (hk.symm.trans ht) (by decide)

/-- The valid bits over a step: a command decides them, a reset clears them all, or nothing changes them. -/
theorem step_validBits {s t : State} (h : step s = .next t) :
    (∃ w d rest, takeEvent s.rst s.inputs = some (.command w d, rest) ∧ issue w d { s with inputs := rest } = .next t) ∨
    ((∃ ev rest, takeEvent s.rst s.inputs = some (ev, rest) ∧ (ev = .assertReset ∨ ∃ w d, ev = .abandoned w d)) ∧
      stv t = false ∧ ∀ k : Fin 11, kv t k = false) ∨
    stv t = stv s ∧ ∀ k : Fin 11, kv t k = kv s k := by
  rcases step_cases h with ⟨-, rfl⟩ | ⟨w, d, rest, he, -, hw⟩ | ⟨w, d, rest, he, rfl⟩ | ⟨rest, he, rfl⟩ | ⟨rest, -, rfl⟩
  · exact .inr (.inr ⟨rfl, fun _ => rfl⟩)
  · exact .inl ⟨w, d, rest, he, hw⟩
  · obtain ⟨hst, hk, -⟩ := registersReset_validBits (enterReset_registersReset _)
    exact .inr (.inl ⟨⟨_, rest, he, .inr ⟨w, d, rfl⟩⟩, hst, hk⟩)
  · obtain ⟨hst, hk, -⟩ := registersReset_validBits (enterReset_registersReset { s with inputs := rest })
    exact .inr (.inl ⟨⟨_, rest, he, .inl rfl⟩, hst, hk⟩)
  · exact .inr (.inr ⟨rfl, fun _ => rfl⟩)

/-- Settles O30, by what a step does to the valid bits: only a reset clears them, and a command sets those its effect writes. -/
theorem onlyResetClearsValidBits : Obligations.OnlyResetClearsValidBits := by
  unfold Obligations.OnlyResetClearsValidBits
  refine ⟨fun s t h => ?_, fun i s => ⟨_, exec_eq_effect i s, fun hok hi => ?_, fun b k hb hk => ?_⟩, fun s => ?_⟩
  · rcases step_validBits h with ⟨w, d, rest, he, hw⟩ | ⟨hev, hst, hk⟩ | ⟨hst, hk⟩
    · obtain ⟨hstKept, hkKept, hstRise, hkRise⟩ := issue_validBits hw
      refine ⟨?_, fun hs ht => ?_, fun k hs ht => ?_⟩
      · rintro (⟨hs, ht⟩ | ⟨k, hs, ht⟩)
        · exact absurd (hstKept hs) (by simp [ht])
        · exact absurd (hkKept k hs) (by simp [ht])
      · obtain ⟨i, hd, hi⟩ := hstRise hs ht
        exact ⟨w, d, rest, i, he, hd, hi⟩
      · obtain ⟨b, hd, hb⟩ := hkRise k hs ht
        exact ⟨w, d, rest, b, he, hd, hb⟩
    · exact ⟨fun _ => hev, by simp [hst], by simp [hk]⟩
    · rw [hst]
      simp only [hk]
      refine ⟨?_, fun hs ht => absurd ht (by simp [hs]), fun k hs ht => absurd ht (by simp [hs])⟩
      rintro (⟨hs, ht⟩ | ⟨k, hs, ht⟩) <;> exact absurd hs (by simp [ht])
  · obtain ⟨y, hy⟩ := effect_result_of_writer hok hi
    exact (Effect.stv_apply _ s).mpr (.inl (by simp [hy]))
  · exact (Effect.kv_apply _ s k).mpr (.inl ⟨bytes s.din, by rw [hb, effect_ldrk hk]; rfl⟩)
  · obtain ⟨hst, hk, -⟩ := registersReset_validBits (leaveReset_enterReset_registersReset s)
    exact ⟨hst, hk⟩

/-! ## The code of a command word (60_exceptions.md R181, R182) -/

/-! ### A word is the encoding of its command, or has a bad field -/

/-- A word is the encoding of the command it decodes to, or decodes to none and has a legal opcode with a bad field. -/
def DecodesByShape (w : CmdWord) : Prop :=
  (∃ i, decode w = .ok i ∧ encode i = w) ∨ ((∃ e, decode w = .error e) ∧ illegalWord w = false ∧ badFieldWord w = true)

theorem decodesByShape_plain {w : CmdWord} {op : BitVec 4} {i : Instr} (hop : opField w = op)
    (hmem : op ∈ [0x0#4, 0x1, 0x2, 0x5, 0x6, 0x7]) (hd : decode w = decodePlain w i) (he : encode i = packWord 0 0 op) :
    DecodesByShape w := by
  have hops : ∀ op ∈ [0x0#4, 0x1, 0x2, 0x5, 0x6, 0x7], (op == 0x3 || op == 0x4 || op == 0x8 || op == 0x9) = false ∧
      (op == 0xA) = false ∧ decide (0xB ≤ op.toNat) = false := by decide
  obtain ⟨hkey, hcount, hillegal⟩ := hops op hmem
  subst hop
  rcases plain_shape rfl hd hkey hcount he with ⟨-, h, h'⟩ | ⟨hbad, h⟩
  · exact .inl ⟨i, h, h'⟩
  · exact .inr ⟨h, hillegal, hbad⟩

theorem decodesByShape_keyed {w : CmdWord} {op : BitVec 4} {mk : BitVec 4 → Instr} (hop : opField w = op)
    (hmem : op ∈ [0x3#4, 0x4, 0x8, 0x9]) (hd : decode w = decodeKeyed w mk) (he : ∀ k, encode (mk k) = packWord 0 k op) :
    DecodesByShape w := by
  have hops : ∀ op ∈ [0x3#4, 0x4, 0x8, 0x9], (op == 0x3 || op == 0x4 || op == 0x8 || op == 0x9) = true ∧
      (op == 0xA) = false ∧ decide (0xB ≤ op.toNat) = false := by decide
  obtain ⟨hkey, hcount, hillegal⟩ := hops op hmem
  subst hop
  rcases keyed_shape rfl hd hkey hcount he with ⟨-, h, h', -⟩ | ⟨hbad, h⟩
  · exact .inl ⟨_, h, h'⟩
  · exact .inr ⟨h, hillegal, hbad⟩

theorem decodesByShape_encb {w : CmdWord} (hop : opField w = 0xA) : DecodesByShape w := by
  have hd : decode w = decodeCounted w .encb := by simp [decode, hop]
  rcases counted_shape hop hd (by simp [usesKey, hop]) (by simp [usesCount, hop]) (fun _ => rfl) with ⟨-, h, h', -⟩ | ⟨hbad, h⟩
  · exact .inl ⟨_, h, h'⟩
  · exact .inr ⟨h, by simp [illegalWord, hop], hbad⟩

theorem decodesByShape (w : CmdWord) : DecodesByShape w := by
  rcases opField_cases w with h | h | h | h | h | h | h | h | h | h | h | h | h | h | h | h
  · exact decodesByShape_plain (i := .nop) h (by decide) (by simp [decode, h]) rfl
  · exact decodesByShape_plain (i := .ldst) h (by decide) (by simp [decode, h]) rfl
  · exact decodesByShape_plain (i := .rdst) h (by decide) (by simp [decode, h]) rfl
  · exact decodesByShape_keyed (mk := .ldrk) h (by decide) (by simp [decode, h]) fun _ => rfl
  · exact decodesByShape_keyed (mk := .ark) h (by decide) (by simp [decode, h]) fun _ => rfl
  · exact decodesByShape_plain (i := .sub) h (by decide) (by simp [decode, h]) rfl
  · exact decodesByShape_plain (i := .shr) h (by decide) (by simp [decode, h]) rfl
  · exact decodesByShape_plain (i := .mix) h (by decide) (by simp [decode, h]) rfl
  · exact decodesByShape_keyed (mk := .rnd) h (by decide) (by simp [decode, h]) fun _ => rfl
  · exact decodesByShape_keyed (mk := .frnd) h (by decide) (by simp [decode, h]) fun _ => rfl
  · exact decodesByShape_encb h
  · exact .inl ⟨.reservedB (restField w), by simp [decode, h], reserved_shape h⟩
  · exact .inl ⟨.reservedC (restField w), by simp [decode, h], reserved_shape h⟩
  · exact .inl ⟨.reservedD (restField w), by simp [decode, h], reserved_shape h⟩
  · exact .inl ⟨.reservedE (restField w), by simp [decode, h], reserved_shape h⟩
  · exact .inl ⟨.reservedF (restField w), by simp [decode, h], reserved_shape h⟩

/-! ### The code of an effect is the first failing check -/

theorem namedKeyValid_packWord {k : BitVec 4} {j : Fin 11} (h : j.val = k.toNat) (nb : BitVec 5) (op : BitVec 4) (s : State) :
    namedKeyValid (packWord nb k op) s = kv s j := by
  rw [Bool.eq_iff_iff, namedKeyValid, rselField_packWord, ← h]
  simp only [List.any_eq_true, List.mem_finRange, true_and, Bool.and_eq_true, beq_iff_eq, Fin.val_inj, exists_eq_left]

theorem responseCode_reserved {op : BitVec 4} (h : 0xB ≤ op.toNat) (rest : BitVec 12) (s : State) :
    responseCode (packReserved rest op) s = .illegalOp := by
  simp [responseCode, illegalWord, h]

/-- RDST, SUB, SHR, MIX: STATE_UNINIT, or OK. -/
theorem responseCode_stateReader {op : BitVec 4} (hmem : op = 0x2 ∨ op = 0x5 ∨ op = 0x6 ∨ op = 0x7) (s : State)
    {f : Block → Effect} (hf : ∀ x, (f x).code = .ok) :
    responseCode (packWord 0 0 op) s = (Effect.after (stateOperand s) f).code := by
  have hcode : responseCode (packWord 0 0 op) s = if stv s then .ok else .stateUninit := by
    rcases hmem with rfl | rfl | rfl | rfl <;> cases h : stv s <;>
      simp [responseCode, illegalWord, badFieldWord, usesKey, usesCount, keyMissing, stateMissing, h]
  rcases stateOperand_cases s with ⟨hs, h⟩ | ⟨x, hs, h⟩ <;> rw [hcode, h, stv, hs]
  · rfl
  · exact (hf x).symm

/-- ARK, RND, FRND: BAD_FIELD, KEY_UNINIT, STATE_UNINIT, or OK. -/
theorem responseCode_keyReader {op : BitVec 4} (hmem : op = 0x4 ∨ op = 0x8 ∨ op = 0x9) (k : BitVec 4) (s : State)
    {f : Block → Block → Effect} (hf : ∀ key x, (f key x).code = .ok) :
    responseCode (packWord 0 k op) s =
      (Effect.after (keyOperand k s) fun key => .after (stateOperand s) (f key)).code := by
  have hbad : 10 < k.toNat → responseCode (packWord 0 k op) s = .badField := fun hk => by
    rcases hmem with rfl | rfl | rfl <;> simp [responseCode, illegalWord, badFieldWord, usesKey, usesCount, hk]
  have hgood : ∀ j : Fin 11, j.val = k.toNat → responseCode (packWord 0 k op) s =
      if kv s j then (if stv s then .ok else .stateUninit) else .keyUninit := fun j hj => by
    have hle : ¬ 10 < k.toNat := by omega
    rcases hmem with rfl | rfl | rfl <;> cases hk : kv s j <;> cases hs : stv s <;>
      simp [responseCode, illegalWord, badFieldWord, usesKey, usesCount, keyMissing, stateMissing,
        namedKeyValid_packWord hj, hle, hk, hs]
  rcases keyOperand_cases k s with ⟨hk, h⟩ | ⟨j, hj, hrk, h⟩ | ⟨j, key, hj, hrk, h⟩
  · rw [hbad hk, h]; rfl
  · rw [hgood j hj, h, kv, hrk]; rfl
  · rcases stateOperand_cases s with ⟨hs, h'⟩ | ⟨x, hs, h'⟩ <;> rw [hgood j hj, h, kv, hrk, h', stv, hs]
    · rfl
    · exact (hf key x).symm

/-- LDRK: BAD_FIELD, or OK. -/
theorem responseCode_ldrk (k : BitVec 4) (s : State) : responseCode (encode (.ldrk k)) s = (effect (.ldrk k) s).code := by
  have hcode : responseCode (packWord 0 k 0x3) s = if 10 < k.toNat then .badField else .ok := by
    simp [responseCode, illegalWord, badFieldWord, usesKey, usesCount, keyMissing, stateMissing]
  rw [encode, hcode, effect]
  by_cases hk : 10 < k.toNat
  · rw [if_pos hk, keyIndex_of_gt hk]; rfl
  · rw [if_neg hk, keyIndex_of_le (i := ⟨k.toNat, by omega⟩) rfl]; rfl

/-- ENCB: BAD_FIELD, KEY_UNINIT, or OK. -/
theorem responseCode_encb (n : BitVec 5) (s : State) : responseCode (encode (.encb n)) s = (effect (.encb n) s).code := by
  rw [encode, effect]
  by_cases hn : 1 ≤ n.toNat ∧ n.toNat ≤ 16
  · have hcode : responseCode (packWord n 0 0xA) s = if kall s then .ok else .keyUninit := by
      cases hk : kall s <;>
        simp [responseCode, illegalWord, badFieldWord, usesKey, usesCount, keyMissing, stateMissing, hk, hn]
    rcases hk : kall s <;> rw [hcode, hk, blockOperand_of_mem s hn]
    · rw [allKeysOperand_of_not_kall hk]; rfl
    · obtain ⟨E, hE⟩ := exists_keys_of_kall hk
      rw [allKeysOperand_of_loaded hE]; rfl
  · have hcode : responseCode (packWord n 0 0xA) s = .badField := by
      simp [responseCode, illegalWord, badFieldWord, usesKey, usesCount, hn]
    rw [hcode, blockOperand_of_not_mem s hn]; rfl

/-- The code of a command's effect is the first that applies to its word. -/
theorem responseCode_encode (i : Instr) (s : State) : responseCode (encode i) s = (effect i s).code := by
  cases i with
  | nop | ldst => rfl
  | rdst | sub | shr | mix => exact responseCode_stateReader (by simp) s fun _ => rfl
  | ark k | rnd k | frnd k => exact responseCode_keyReader (by simp) k s fun _ _ => rfl
  | ldrk k => exact responseCode_ldrk k s
  | encb n => exact responseCode_encb n s
  | reservedB rest | reservedC rest | reservedD rest | reservedE rest | reservedF rest =>
    exact responseCode_reserved (by decide) rest s

/-- Every word ends with the first code that applies. -/
theorem wordEffect_code (w : CmdWord) (s : State) : (wordEffect w s).code = responseCode w s := by
  rcases decodesByShape w with ⟨i, hd, hw⟩ | ⟨⟨e, hd⟩, hillegal, hbad⟩
  · rw [wordEffect_of_ok hd, ← responseCode_encode, hw]
  · rw [wordEffect_of_error hd]
    simp [responseCode, hillegal, hbad, Effect.respond]

/-! ## ERR and LASTRSP (10_state.md R25) -/

/-- No command reads ERR or LASTRSP. -/
theorem effect_with_errors (i : Instr) (s : State) (e l : Rsp) : effect i { s with err := e, lastRsp := l } = effect i s := by
  cases i <;> rfl

theorem wordEffect_with_errors (w : CmdWord) (s : State) (e l : Rsp) :
    wordEffect w { s with err := e, lastRsp := l } = wordEffect w s := by
  rcases hd : decode w with e' | i
  · rw [wordEffect_of_error hd, wordEffect_of_error hd]
  · rw [wordEffect_of_ok hd, wordEffect_of_ok hd, effect_with_errors]

/-- Settles O16: a word's effect has the code as its own, latches it in ERR, and is the same whatever ERR and LASTRSP were. -/
theorem errKeepsTheFirstError : Obligations.ErrKeepsTheFirstError := by
  unfold Obligations.ErrKeepsTheFirstError
  intro w d s
  have hcode : (wordEffect w { s with din := d }).code = responseCode w s := wordEffect_code w { s with din := d }
  refine ⟨_, issue_eq_effect w d s, hcode, fun he => latchError_of_ne _ he, fun he => ?_, fun e l => ?_⟩
  · exact (congrArg (latchError · _) he).trans hcode
  · refine ⟨_, issue_eq_effect w d { s with err := e, lastRsp := l }, ?_⟩
    rw [wordEffect_with_errors w { s with din := d } e l]
    exact ⟨rfl, rfl, rfl, rfl, rfl⟩

end Sys2Proof.Machine

namespace Sys2Proof.Machine

/-! ## Bus words (20_memory.md R40) -/

/-- Settles O39: `byteOf` is the slice of R40, and `bytes` and `word` undo each other byte by byte. -/
theorem busByteOrder : Obligations.BusByteOrder := by
  unfold Obligations.BusByteOrder
  exact ⟨fun w i => bytes_getElem w i.val i.isLt, byteOf_word, word_bytes, by decide, by decide⟩

/-! ## Commands that may be repeated (20_memory.md R46) -/

/-- The first error is kept, so latching the same code again changes nothing. -/
theorem latchError_latchError (old e : Rsp) : latchError (latchError old e) e = latchError old e := by
  by_cases h : old = .ok
  · subst h
    cases e <;> rfl
  · rw [latchError_of_ne e h, latchError_of_ne e h]

namespace Effect

/-- Writing a round key twice with one value is writing it once. -/
theorem keys_keys (a : Effect) (rk : Vector (Option Block) 11) : a.keys (a.keys rk) = a.keys rk := by
  rcases h : a.key with _ | ⟨k, x⟩
  · rw [keys_of_none h, keys_of_none h]
  · simp only [keys, h, Vector.set_set]

/-- An effect carried out a second time changes no register: it writes values, and none of them depends on the old one. -/
theorem sameRegisters_apply_apply (a : Effect) (s : State) : sameRegisters (a.apply s) (a.apply (a.apply s)) := by
  refine ⟨?_, (a.keys_keys s.rk).symm, (latchError_latchError s.err a.code).symm, rfl⟩
  rcases h : a.result with _ | x <;> simp [h]

end Effect

theorem effect_key_eq_none {i : Instr} (hi : ∀ b, i ≠ .ldrk b) (s : State) : (effect i s).key = none := by
  rw [Option.eq_none_iff_forall_ne_some]
  rintro ⟨k, x⟩ h
  obtain ⟨b, hb, -⟩ := effect_key_eq_some h
  exact hi b hb

theorem opField_encode (i : Instr) : opField (encode i) = opcode i := by
  cases i <;> simp only [encode, opcode, opField_packWord, opField_packReserved]

theorem opcode_of_decode {w : CmdWord} {i : Instr} (h : decode w = .ok i) : opcode i = opField w := by
  rcases decodesByShape w with ⟨j, hj, hw⟩ | ⟨⟨e, he⟩, -⟩
  · cases h.symm.trans hj
    rw [← opField_encode, hw]
  · cases h.symm.trans he

/-- NOP, LDST, RDST, LDRK and ENCB write nothing that they read themselves, but for RDST's STATE, to which it gives the
value it has. So after one of them the same command has the same effect. -/
theorem effect_apply_effect {i : Instr}
    (hi : opcode i = 0x0 ∨ opcode i = 0x1 ∨ opcode i = 0x2 ∨ opcode i = 0x3 ∨ opcode i = 0xA) (s : State) :
    effect i ((effect i s).apply s) = effect i s := by
  cases i with
  | nop | ldst | ldrk _ => rfl
  | rdst =>
    have hkept := effect_keeps_stateReg (i := .rdst) (s := s) (.inr (.inl rfl))
    exact congrArg (fun x => effect .rdst { s with stateReg := x }) hkept
  | encb n =>
    have hkept := Effect.keys_of_none (effect_key_eq_none (i := .encb n) nofun s) s.rk
    exact congrArg (fun keys => effect (.encb n) { s with rk := keys }) hkept
  | ark _ | sub | shr | mix | rnd _ | frnd _ => simp [opcode] at hi
  | reservedB _ | reservedC _ | reservedD _ | reservedE _ | reservedF _ => simp [opcode] at hi

/-- The same of a command word; one with a bad field ends with BAD_FIELD both times. -/
theorem wordEffect_apply_wordEffect {w : CmdWord}
    (hw : opField w = 0x0 ∨ opField w = 0x1 ∨ opField w = 0x2 ∨ opField w = 0x3 ∨ opField w = 0xA) (s : State) :
    wordEffect w ((wordEffect w s).apply s) = wordEffect w s := by
  rcases hd : decode w with e | i
  · rw [wordEffect_of_error hd, wordEffect_of_error hd]
  · rw [← opcode_of_decode hd] at hw
    rw [wordEffect_of_ok hd, wordEffect_of_ok hd, effect_apply_effect hw]

/-- With the operand on the `din` port already, a word does what its effect says in that very state. -/
theorem issue_eq_effect_of_din {d : BusWord} {s : State} (h : s.din = d) (w : CmdWord) :
    issue w d s = .next ((wordEffect w s).apply s) := by
  subst h
  exact issue_eq_effect w s.din s

/-- Settles O32: the repeated word has the effect of the first, and an effect carried out twice changes no register again. -/
theorem repeatedTransfersAreIdempotent : Obligations.RepeatedTransfersAreIdempotent := by
  unfold Obligations.RepeatedTransfersAreIdempotent
  intro w d s hw
  refine ⟨_, _, issue_eq_effect w d s, issue_eq_effect_of_din rfl w, ?_⟩
  rw [wordEffect_apply_wordEffect hw]
  exact Effect.sameRegisters_apply_apply _ _

end Sys2Proof.Machine

namespace Sys2Proof.Machine

/-! ## Decoding and encoding are inverse (30_encoding.md R61, R64) -/

/-- A command's word decodes to the command exactly when its operands are ones the encoding admits. -/
theorem decode_encode_iff (i : Instr) : decode (encode i) = .ok i ↔ i.wellFormed = true := by
  cases i with
  | nop | ldst | rdst | sub | shr | mix => exact iff_of_true (decodePlain_packWord _ _) rfl
  | ldrk k | ark k | rnd k | frnd k =>
    rw [encode, decode, opField_packWord]
    simp [decodeKeyed, Instr.wellFormed, Instr.keyIndexOk]
  | encb n =>
    rw [encode, decode, opField_packWord]
    simp [decodeCounted, Instr.wellFormed, Instr.byteCountOk, Nat.one_le_iff_ne_zero]
  | reservedB rest | reservedC rest | reservedD rest | reservedE rest | reservedF rest =>
    simp [decode, encode, Instr.wellFormed]

/-- Settles O1: a command's word decodes to it exactly when it is well-formed. -/
theorem decodeOfEncodeIsTheCommand : Obligations.DecodeOfEncodeIsTheCommand :=
  fun i => (decode_encode_iff i).mpr

/-- The words that decode to a command are its own, one for each command whose operands are admitted. -/
theorem decode_eq_ok_iff {w : CmdWord} {i : Instr} : decode w = .ok i ↔ encode i = w ∧ i.wellFormed = true := by
  refine ⟨fun h => ?_, fun ⟨hw, hwf⟩ => hw ▸ (decode_encode_iff i).mpr hwf⟩
  rcases decodesByShape w with ⟨j, hj, hw⟩ | ⟨⟨e, he⟩, -⟩
  · cases h.symm.trans hj
    exact ⟨hw, (decode_encode_iff i).mp (hw ▸ h)⟩
  · cases h.symm.trans he

/-! ## Every word is one command or one error (30_encoding.md R66, R67) -/

/-- The commands of the reserved opcodes. -/
def isReserved (i : Instr) : Bool := decide (0xB ≤ (opcode i).toNat)

theorem illegalWord_encode (i : Instr) : illegalWord (encode i) = isReserved i := by
  rw [illegalWord, opField_encode, isReserved]

theorem exec_of_isReserved {i : Instr} (h : isReserved i = true) (s : State) :
    exec i s = .next (takeError .illegalOp s) := by
  cases i with
  | reservedB _ | reservedC _ | reservedD _ | reservedE _ | reservedF _ => rfl
  | nop | ldst | rdst | ldrk _ | ark _ | sub | shr | mix | rnd _ | frnd _ | encb _ => cases h

/-- The word of a legal opcode has no bad field exactly when the operands are admitted. -/
theorem badFieldWord_encode {i : Instr} (h : isReserved i = false) :
    badFieldWord (encode i) = false ↔ i.wellFormed = true := by
  cases i with
  | nop | ldst | rdst | sub | shr | mix => exact iff_of_true rfl rfl
  | ldrk k | ark k | rnd k | frnd k =>
    simp [badFieldWord, usesKey, usesCount, encode, Instr.wellFormed, Instr.keyIndexOk]
  | encb n => simp [badFieldWord, usesKey, usesCount, encode, Instr.wellFormed, Instr.byteCountOk]
  | reservedB _ | reservedC _ | reservedD _ | reservedE _ | reservedF _ => cases h

/-- Settles O2: a word is the encoding of its command, whose opcode and operands say which of the three it is, or it has a
bad field. -/
theorem everyWordIsOneCommandOrOneError : Obligations.EveryWordIsOneCommandOrOneError := by
  unfold Obligations.EveryWordIsOneCommandOrOneError
  intro w
  rcases decodesByShape w with ⟨i, hd, hw⟩ | ⟨⟨e, hd⟩, hillegal, hbad⟩
  · obtain ⟨-, hwf⟩ := decode_eq_ok_iff.mp hd
    subst hw
    rw [illegalWord_encode]
    refine ⟨fun hres => ⟨⟨i, hd, rfl⟩, fun d s => ?_⟩, fun hres hbad => ?_, fun _ _ => ?_⟩
    · rw [issue_of_ok hd, exec_of_isReserved hres]
    · rw [(badFieldWord_encode hres).mpr hwf] at hbad
      cases hbad
    · exact ⟨i, hd, rfl, hwf, issue_of_ok hd⟩
  · rw [hillegal, hbad]
    exact ⟨nofun, fun _ _ => ⟨⟨e, hd⟩, issue_of_error hd⟩, nofun⟩

/-! ## The legal words (30_encoding.md R64) -/

/-- The commands of the legal opcodes with the operands the encoding admits, in the order of `legalWords`. -/
def legalCommands : List Instr :=
  [.nop, .ldst, .rdst, .sub, .shr, .mix] ++
  [Instr.ldrk, .ark, .rnd, .frnd].flatMap (fun mk => (List.range 11).map fun k => mk (BitVec.ofNat 4 k)) ++
  (List.range 16).map fun n => .encb (BitVec.ofNat 5 (n + 1))

theorem legalWords_eq_map : legalWords = legalCommands.map encode := by decide

theorem mem_legalCommands {i : Instr} : i ∈ legalCommands ↔ isReserved i = false ∧ i.wellFormed = true := by
  have hkey (k : BitVec 4) : (∃ a < 11, BitVec.ofNat 4 a = k) ↔ Instr.keyIndexOk k = true := by
    revert k; decide
  have hcount (n : BitVec 5) : (∃ a < 16, BitVec.ofNat 5 (a + 1) = n) ↔ Instr.byteCountOk n = true := by
    revert n; decide
  cases i with
  | nop | ldst | rdst | sub | shr | mix => simp [legalCommands, isReserved, opcode, Instr.wellFormed]
  | ldrk k | ark k | rnd k | frnd k => simp [legalCommands, isReserved, opcode, Instr.wellFormed, hkey]
  | encb n => simp [legalCommands, isReserved, opcode, Instr.wellFormed, hcount]
  | reservedB _ | reservedC _ | reservedD _ | reservedE _ | reservedF _ => simp [legalCommands, isReserved, opcode]

/-- Settles O3: the listed words are the words of the legal commands, and those are the words that decode to one. -/
theorem legalWordsAreSixtySix : Obligations.LegalWordsAreSixtySix := by
  unfold Obligations.LegalWordsAreSixtySix
  refine ⟨rfl, by decide, fun w => ?_⟩
  simp only [legalWords_eq_map, List.mem_map, mem_legalCommands, decode_eq_ok_iff]
  constructor
  · rintro ⟨i, ⟨hres, hwf⟩, rfl⟩
    exact ⟨illegalWord_encode i ▸ hres, i, rfl, hwf⟩
  · rintro ⟨hlegal, i, rfl, hwf⟩
    exact ⟨i, ⟨illegalWord_encode i ▸ hlegal, hwf⟩, rfl⟩

/-! ## The opcode table (opcode_table.json) -/

theorem opField_and (v w : CmdWord) : opField (v &&& w) = opField v &&& opField w :=
  BitVec.extractLsb'_and

/-- A mask on a packed word is a mask on each of its fields. -/
theorem packWord_and (nb rsel op) (rsvMask : BitVec 3) (nbMask : BitVec 5) (rselMask opMask : BitVec 4) :
    packWord nb rsel op &&& (rsvMask ++ nbMask ++ rselMask ++ opMask) =
      packWord (nb &&& nbMask) (rsel &&& rselMask) (op &&& opMask) :=
  BitVec.and_append.trans (by rw [BitVec.and_append, BitVec.and_append, BitVec.zero_and]; rfl)

/-- The mask of the rows that use RSEL. -/
theorem packWord_keyMask (k op : BitVec 4) : packWord 0 k op &&& 0xFF0F = packWord 0 0 op :=
  (packWord_and 0 k op 7 31 0 15).trans (congrArg₂ (packWord 0) BitVec.and_zero BitVec.and_allOnes)

/-- The mask of the row that uses NB. -/
theorem packWord_countMask (n : BitVec 5) (op : BitVec 4) : packWord n 0 op &&& 0xE0FF = packWord 0 0 op :=
  (packWord_and n 0 op 7 0 15 15).trans (congrArg₂ (packWord · 0) BitVec.and_zero BitVec.and_allOnes)

/-- The mask of the reserved rows. -/
theorem packReserved_opMask (rest : BitVec 12) (op : BitVec 4) : packReserved rest op &&& 0x000F = packReserved 0 op :=
  BitVec.and_append.trans (congrArg₂ packReserved BitVec.and_zero BitVec.and_allOnes)

theorem rowFits_tableRow_encode (i : Instr) : rowFits (tableRow i) (encode i) = true := by
  cases i with
  | nop | ldst | rdst | sub | shr | mix => rfl
  | ldrk k | ark k | rnd k | frnd k => exact beq_iff_eq.mpr (packWord_keyMask k _)
  | encb n => exact beq_iff_eq.mpr (packWord_countMask n _)
  | reservedB rest | reservedC rest | reservedD rest | reservedE rest | reservedF rest =>
    exact beq_iff_eq.mpr (packReserved_opMask rest _)

theorem tableRow_mem (i : Instr) : tableRow i ∈ opcodeTable := by
  cases i <;> simp [tableRow, opcodeTable]

theorem opField_pattern_tableRow (i : Instr) : opField (tableRow i).pattern = opcode i := by
  cases i <;> rfl

/-- Every row fixes the whole opcode, so a word that fits it has the opcode of its pattern. -/
theorem opField_of_rowFits {r : OpcodeRow} {w : CmdWord} (hr : r ∈ opcodeTable) (h : rowFits r w = true) :
    opField w = opField r.pattern := by
  have hmask : ∀ r ∈ opcodeTable, opField r.mask = BitVec.allOnes 4 := by decide
  rw [← eq_of_beq h, opField_and, hmask r hr, BitVec.and_allOnes]

theorem row_eq_of_opField : ∀ r ∈ opcodeTable, ∀ r' ∈ opcodeTable, opField r.pattern = opField r'.pattern → r = r' := by
  decide

/-- Settles O5: a decoded word is the encoding of its command, which fits the command's row; a row it fits has its opcode,
and no two rows have the same. -/
theorem wordsFitExactlyTheirRow : Obligations.WordsFitExactlyTheirRow := by
  unfold Obligations.WordsFitExactlyTheirRow
  intro w i hd
  obtain ⟨rfl, -⟩ := decode_eq_ok_iff.mp hd
  refine ⟨tableRow_mem i, rowFits_tableRow_encode i, fun r hr hfit => row_eq_of_opField r hr _ (tableRow_mem i) ?_⟩
  rw [← opField_of_rowFits hr hfit, opField_encode, opField_pattern_tableRow]

/-! ## The operand port (30_encoding.md R61, 93_implementation_defined.md U17) -/

/-- LDST, LDRK and ENCB alone read din. -/
theorem effect_with_din {i : Instr} (hldst : opcode i ≠ 0x1) (hldrk : opcode i ≠ 0x3) (hencb : opcode i ≠ 0xA) (s : State)
    (d : BusWord) : effect i { s with din := d } = effect i s := by
  cases i with
  | ldst => exact absurd rfl hldst
  | ldrk _ => exact absurd rfl hldrk
  | encb _ => exact absurd rfl hencb
  | nop | rdst | ark _ | sub | shr | mix | rnd _ | frnd _ => rfl
  | reservedB _ | reservedC _ | reservedD _ | reservedE _ | reservedF _ => rfl

theorem wordEffect_with_din {w : CmdWord} (hldst : opField w ≠ 0x1) (hldrk : opField w ≠ 0x3) (hencb : opField w ≠ 0xA)
    (s : State) (d : BusWord) : wordEffect w { s with din := d } = wordEffect w s := by
  rcases hd : decode w with e | i
  · rw [wordEffect_of_error hd, wordEffect_of_error hd]
  · rw [← opcode_of_decode hd] at hldst hldrk hencb
    rw [wordEffect_of_ok hd, wordEffect_of_ok hd, effect_with_din hldst hldrk hencb]

/-- Settles O31: the word's effect is the same for both operands, and an effect leaves the `din` port as it is. -/
theorem unusedOperandHasNoEffect : Obligations.UnusedOperandHasNoEffect := by
  unfold Obligations.UnusedOperandHasNoEffect
  intro w d d' s hldst hldrk hencb
  refine ⟨_, issue_eq_effect w d s, ?_⟩
  rw [issue_eq_effect, wordEffect_with_din hldst hldrk hencb s d, wordEffect_with_din hldst hldrk hencb s d']
  rfl

/-! ## Examples (30_encoding.md R65) and reserved opcodes (R66) -/

/-- A table of commands and their words is right in both directions when it is right in one. -/
theorem decode_of_encode_table {table : List (Instr × CmdWord)}
    (h : ∀ p ∈ table, p.1.wellFormed = true ∧ encode p.1 = p.2) :
    ∀ p ∈ table, encode p.1 = p.2 ∧ decode p.2 = .ok p.1 := fun p hp =>
  have ⟨hwf, hw⟩ := h p hp
  ⟨hw, decode_eq_ok_iff.mpr ⟨hw, hwf⟩⟩

/-- Settles O4: the commands of the table are well-formed and have the words beside them. -/
theorem encodingExamplesDecode : Obligations.EncodingExamplesDecode := by
  unfold Obligations.EncodingExamplesDecode
  exact decode_of_encode_table (by decide)

/-- Settles O28: the words are the encodings of the reserved commands, which are well-formed whatever their rest is. -/
theorem reservedOpcodesEndWithIllegalOp : Obligations.ReservedOpcodesEndWithIllegalOp := by
  unfold Obligations.ReservedOpcodesEndWithIllegalOp
  intro rest s
  have hexec (i : Instr) (h : isReserved i = true) := exec_of_isReserved h s
  have hdecode (i : Instr) (h : i.wellFormed = true) := (decode_encode_iff i).mpr h
  exact ⟨hexec _ rfl, hexec _ rfl, hexec _ rfl, hexec _ rfl, hexec _ rfl, hdecode (.reservedB rest) rfl,
    hdecode (.reservedC rest) rfl, hdecode (.reservedD rest) rfl, hdecode (.reservedE rest) rfl,
    hdecode (.reservedF rest) rfl⟩

/-! ## The pseudo-instructions (30_encoding.md R70) -/

theorem assembleOp_encblk (w : List Char) : assembleOp ['e', 'n', 'c', 'b', 'l', 'k'] [w] =
    (parseBusWord w).map fun d => [.command (encode (.encb 16)) d] := rfl

theorem assembleOp_encb (n w : List Char) : assembleOp ['e', 'n', 'c', 'b'] [n, w] =
    (parseByteCount n).bind fun m => (parseBusWord w).map fun d => [.command (encode (.encb m)) d] := rfl

theorem assembleOp_ldkey (e : List Char) : assembleOp ['l', 'd', 'k', 'e', 'y'] [e] =
    if e.length = 352 then (parseBytes e).map fun bs => ldkeyCommands (sliceKey bs) else none := rfl

theorem assembleOp_ecb (p : List Char) : assembleOp ['e', 'c', 'b'] [p] =
    (parseBytes p).map fun bs => blockCommands bs fun _ => 0 := rfl

/-- Settles O59: `ldkey` is eleven encoded LDRKs, `encblk` is `encb` with the count 16, `round` and `final` have the arms of
`rnd` and `frnd`, and `ecb` issues the block commands of its bytes. -/
theorem pseudoInstructionsExpand : Obligations.PseudoInstructionsExpand := by
  unfold Obligations.PseudoInstructionsExpand
  refine ⟨fun E => rfl, fun e bs hlen hbs => ?_, fun w => ?_, fun k => ⟨rfl, rfl⟩, fun p bs hbs => ?_, rfl⟩
  · rw [assembleOp_ldkey, if_pos hlen, hbs, Option.map_some]
  · have h16 : parseByteCount ['1', '6'] = some 16 := by decide
    rw [assembleOp_encblk, assembleOp_encb, h16, Option.bind_some]
  · rw [assembleOp_ecb, hbs, Option.map_some]

end Sys2Proof.Machine

namespace Sys2Proof.Machine

/-! # The S-box, MUL2 and MUL3 (40_lookup_tables.md) -/

/-! ## The S-box: a composition of two bijections (R81) -/

theorem sbox_eq_sboxAffine_gfInv : ∀ b, sbox b = sboxAffine (gfInv b) := forall_byte (by decide +kernel)

/-- The inverse of the affine map A: its linear part is the rotations by 1, 3 and 6. -/
def sboxAffineInv (y : Byte) : Byte := rotl8 y 1 ^^^ rotl8 y 3 ^^^ rotl8 y 6 ^^^ 0x05

theorem sboxAffineInv_sboxAffine : Function.LeftInverse sboxAffineInv sboxAffine := forall_byte (by decide +kernel)

theorem sboxAffine_sboxAffineInv : Function.RightInverse sboxAffineInv sboxAffine := forall_byte (by decide +kernel)

theorem sboxAffine_bijective : Function.Bijective sboxAffine :=
  Function.bijective_iff_has_inverse.mpr ⟨sboxAffineInv, sboxAffineInv_sboxAffine, sboxAffine_sboxAffineInv⟩

/-- INV read off the table, where the kernel computes it much faster than as a power. -/
theorem gfInv_eq_sboxAffineInv_sbox (b : Byte) : gfInv b = sboxAffineInv (sbox b) := by
  rw [sbox_eq_sboxAffine_gfInv, sboxAffineInv_sboxAffine]

theorem gfMul_gfInv (b : Byte) : b ≠ 0 → gfMul b (gfInv b) = 1 := by
  rw [gfInv_eq_sboxAffineInv_sbox]
  exact forall_byte (p := fun b => b ≠ 0 → gfMul b (sboxAffineInv (sbox b)) = 1) (by decide +kernel) b

theorem gfInv_involutive : Function.Involutive gfInv := by
  rw [funext gfInv_eq_sboxAffineInv_sbox]
  exact forall_byte (by decide +kernel)

theorem sbox_bijective : Function.Bijective sbox := by
  have hcomp : sbox = sboxAffine ∘ gfInv := funext sbox_eq_sboxAffine_gfInv
  rw [hcomp]
  exact sboxAffine_bijective.comp gfInv_involutive.bijective

/-- Settles O40: the 256 entries are compared with the algebra, which makes the table a composition of the bijections INV
and A. -/
theorem sboxIsTheAffineOfTheInverse : Obligations.SboxIsTheAffineOfTheInverse := by
  unfold Obligations.SboxIsTheAffineOfTheInverse
  exact ⟨sbox_eq_sboxAffine_gfInv, gfMul_gfInv, by decide, sbox_bijective, by decide⟩

/-! ## MUL2 and MUL3: linear maps with no kernel (R82 to R84) -/

theorem mul2_eq_shift_xor (b : Byte) : mul2 b = (b <<< 1) ^^^ (if b.getLsbD 7 then 0x1B#8 else 0x00#8) := by
  rw [mul2, BitVec.msb_eq_getLsbD_last]

/-- Doubling leaves bit 0 clear unless it adds `0x1B`, so no other byte is sent to 0. -/
theorem eq_zero_of_mul2_eq_zero : ∀ b, mul2 b = 0 → b = 0 := forall_byte (by decide +kernel)

theorem eq_zero_of_mul3_eq_zero : ∀ b, mul3 b = 0 → b = 0 := forall_byte (by decide +kernel)

/-- A map that is linear over XOR and gives 0 from 0 only is a bijection, as there are finitely many bytes. -/
theorem bijective_of_xor_linear {f : Byte → Byte} (hxor : ∀ a b, f (a ^^^ b) = f a ^^^ f b)
    (hker : ∀ b, f b = 0 → b = 0) : Function.Bijective f := by
  refine Finite.injective_iff_bijective.mp fun a b hab => ?_
  have hzero : f (a ^^^ b) = 0 := by rw [hxor, hab, BitVec.xor_self]; rfl
  exact BitVec.xor_eq_zero_iff.mp (hker _ hzero)

theorem mul2_bijective : Function.Bijective mul2 := bijective_of_xor_linear mul2_xor eq_zero_of_mul2_eq_zero

theorem mul3_bijective : Function.Bijective mul3 := bijective_of_xor_linear mul3_xor eq_zero_of_mul3_eq_zero

/-- Settles O41: the tables by their 256 entries, the bijections by linearity and the empty kernel. -/
theorem mulTablesAreTheFormulas : Obligations.MulTablesAreTheFormulas := by
  unfold Obligations.MulTablesAreTheFormulas
  exact ⟨fun b => (mul2_eq_table b).symm.trans (mul2_eq_shift_xor b), fun b => (mul3_eq_table b).symm,
    mul2_eq_table, mul3_eq_table, mul2_bijective, mul3_bijective, fun a b => ⟨mul2_xor a b, mul3_xor a b⟩,
    by decide⟩

end Sys2Proof.Machine

namespace Sys2Proof.Machine

/-! # The transforms (41_transforms.md) -/

/-! ## Bytes of a 16-byte value (00_scope.md R8) -/

/-- A 16-byte value is its 4x4 matrix, row `r` and column `c` at byte `4c + r`. -/
theorem block_ext {s t : Block} (h : ∀ r c : Fin 4, s[4 * c.val + r.val] = t[4 * c.val + r.val]) : s = t := by
  refine Vector.ext fun i hi => ?_
  have hrc := h ⟨i % 4, by omega⟩ ⟨i / 4, by omega⟩
  simpa only [Nat.div_add_mod] using hrc

/-! ## AddRoundKey (R90, R91) -/

@[simp] theorem arkf_getElem (s key : Block) (i : Nat) (hi : i < 16) : (arkf s key)[i] = s[i] ^^^ key[i] := by
  simp [arkf]

theorem arkf_zero (s : Block) : arkf s (Vector.replicate 16 0) = s :=
  Vector.ext fun i hi => by simp

theorem arkf_self (s : Block) : arkf s s = Vector.replicate 16 0 :=
  Vector.ext fun i hi => by simp

theorem arkf_assoc (s t u : Block) : arkf (arkf s t) u = arkf s (arkf t u) :=
  Vector.ext fun i hi => by simp [BitVec.xor_assoc]

/-- Adding a key twice adds zero. -/
theorem arkf_arkf_cancel (s key : Block) : arkf (arkf s key) key = s := by
  rw [arkf_assoc, arkf_self, arkf_zero]

/-- Settles O42: AddRoundKey is XOR byte by byte, so a key added twice cancels. -/
theorem addRoundKeyIsItsOwnInverse : Obligations.AddRoundKeyIsItsOwnInverse :=
  fun s key => ⟨fun i => arkf_getElem s key i i.isLt, arkf_arkf_cancel s key⟩

/-! ## SubBytes (R93) -/

theorem subf_eq_map (s : Block) : subf s = s.map sbox :=
  Vector.ext fun i hi => by simp [subf]

/-- A map with an inverse is undone byte by byte. -/
theorem map_leftInverse {f g : Byte → Byte} (h : Function.LeftInverse g f) :
    Function.LeftInverse (fun s : Block => s.map g) (fun s : Block => s.map f) := fun s => by
  simp only [Vector.map_map, h.comp_eq_id, Vector.map_id]

theorem subf_bijective : Function.Bijective subf := by
  obtain ⟨inv, hleft, hright⟩ := Function.bijective_iff_has_inverse.mp sbox_bijective
  rw [funext subf_eq_map]
  exact Function.bijective_iff_has_inverse.mpr ⟨fun s => s.map inv, map_leftInverse hleft, map_leftInverse hright⟩

theorem subf_replicate (b : Byte) : subf (Vector.replicate 16 b) = Vector.replicate 16 (sbox b) := by
  rw [subf_eq_map, Vector.map_replicate]

/-- `0x52` is the one byte that the S-box sends to 0. -/
theorem sbox_eq_zero_iff (b : Byte) : sbox b = 0 ↔ b = 0x52 :=
  sbox_bijective.injective.eq_iff' (by decide)

/-- Settles O43: SubBytes is the S-box on every byte, and so is undone by the S-box's inverse on every byte. -/
theorem subBytesIsABijection : Obligations.SubBytesIsABijection :=
  ⟨fun s i => by simp [subf_eq_map], subf_bijective⟩

/-! ## ShiftRows (R95, R96) -/

/-- Row `r` is rotated left by `r`. -/
theorem shrf_getElem (s : Block) (r c : Fin 4) :
    (shrf s)[4 * c.val + r.val] = s[4 * ((c.val + r.val) % 4) + r.val] := by
  have hr : (4 * c.val + r.val) % 4 = r.val := by omega
  have hc : (4 * c.val + r.val) / 4 = c.val := by omega
  simp only [shrf, Vector.getElem_ofFn, hr, hc]

/-- After `n` ShiftRows row `r` is rotated left by `n r`. -/
theorem iterate_shrf_getElem (n : Nat) (s : Block) (r c : Fin 4) :
    (shrf^[n] s)[4 * c.val + r.val] = s[4 * ((c.val + r.val * n) % 4) + r.val] := by
  induction n generalizing s with
  | zero => simp [Nat.mod_eq_of_lt c.isLt]
  | succ n ih =>
    have hsum : ((c.val + r.val * n) % 4 + r.val) % 4 = (c.val + r.val * (n + 1)) % 4 := by
      rw [Nat.mod_add_mod, Nat.mul_succ, Nat.add_assoc]
    rw [Function.iterate_succ_apply, ih, shrf_getElem s r ⟨(c.val + r.val * n) % 4, Nat.mod_lt _ (by decide)⟩]
    simp only [hsum]

theorem shrf_fourth (s : Block) : shrf (shrf (shrf (shrf s))) = s := by
  refine block_ext fun r c => (iterate_shrf_getElem 4 s r c).trans ?_
  simp only [Nat.add_mul_mod_self_right, Nat.mod_eq_of_lt c.isLt]

theorem shrf_bijective : Function.Bijective shrf :=
  Function.bijective_iff_has_inverse.mpr ⟨fun s => shrf (shrf (shrf s)), shrf_fourth, shrf_fourth⟩

/-- Byte `i` is `i`, so that a byte tells where it came from. -/
def countingBlock : Block := Vector.ofFn fun i => BitVec.ofNat 8 i.val

theorem shrf_row_fixed_iff (r : Fin 4) (n : Nat) :
    (∀ (s : Block) (c : Fin 4), (shrf^[n] s)[4 * c.val + r.val] = s[4 * c.val + r.val]) ↔ 4 ∣ r.val * n := by
  simp only [iterate_shrf_getElem]
  constructor
  · intro h
    have hbyte : (4 * (r.val * n % 4) + r.val) % 256 = r.val % 256 := by
      simpa [countingBlock] using congrArg BitVec.toNat (h countingBlock 0)
    omega
  · rintro ⟨m, hm⟩ s c
    simp only [hm, Nat.add_mul_mod_self_left, Nat.mod_eq_of_lt c.isLt]

/-- SRC of R95: the input byte that each byte of the result is. -/
def shiftRowsSource : List (Fin 16) := [0, 5, 10, 15, 4, 9, 14, 3, 8, 13, 2, 7, 12, 1, 6, 11]

theorem shrf_source (s : Block) (i : Fin 16) : (shrf s)[i] = s[shiftRowsSource.getD i.val 0] := by
  have hsrc : ∀ i : Fin 16,
      4 * ((i.val / 4 + i.val % 4) % 4) + i.val % 4 = (shiftRowsSource.getD i.val 0).val := by decide
  simp only [shrf, Fin.getElem_fin, Vector.getElem_ofFn, hsrc]

/-- Settles O44: `n` applications rotate row `r` by `r n`, which is no rotation exactly when 4 divides it. -/
theorem shiftRowsRotatesEachRow : Obligations.ShiftRowsRotatesEachRow :=
  ⟨shrf_getElem, shrf_source, by decide, shrf_bijective, shrf_fourth, shrf_row_fixed_iff⟩

/-- Row 0 is not rotated. -/
theorem shrf_row_zero (s : Block) (c : Fin 4) : (shrf s)[4 * c.val] = s[4 * c.val] := by
  simpa [Nat.mod_eq_of_lt c.isLt] using shrf_getElem s 0 c

/-- A value whose rows are each constant is unchanged. -/
theorem shrf_of_constant_rows {x : Block} (h : ∀ i : Fin 16, x[i] = x[i.val % 4]) : shrf x = x := by
  have hrow (r c : Fin 4) : x[4 * c.val + r.val] = x[r.val] := by
    refine (h ⟨4 * c.val + r.val, by omega⟩).trans ?_
    simp only [Nat.mul_add_mod, Nat.mod_eq_of_lt r.isLt]
  refine block_ext fun r c => ?_
  rw [shrf_getElem, hrow r c]
  exact hrow r ⟨(c.val + r.val) % 4, Nat.mod_lt _ (by decide)⟩

/-! ## MixColumns (R98 to R100) -/

/-- Output column `c` is made from input column `c` alone. -/
theorem mixf_getElem (s : Block) (r c : Fin 4) : (mixf s)[4 * c.val + r.val] =
    mixColumn s[4 * c.val] s[4 * c.val + 1] s[4 * c.val + 2] s[4 * c.val + 3] r.val := by
  have hr : (4 * c.val + r.val) % 4 = r.val := by omega
  have hc : (4 * c.val + r.val) / 4 = c.val := by omega
  simp only [mixf, Vector.getElem_ofFn, hr, hc]

/-- MUL2, MUL3 and XOR are linear, and so is each row of the matrix. -/
theorem mixColumn_xor (a0 a1 a2 a3 b0 b1 b2 b3 : Byte) (r : Nat) :
    mixColumn (a0 ^^^ b0) (a1 ^^^ b1) (a2 ^^^ b2) (a3 ^^^ b3) r = mixColumn a0 a1 a2 a3 r ^^^ mixColumn b0 b1 b2 b3 r := by
  match r with
  | 0 | 1 | 2 | _ + 3 => simp only [mixColumn, mul2_xor, mul3_xor]; ac_rfl

/-- The coefficients of each row, 2, 3, 1 and 1, add to 1. -/
theorem mixColumn_self (a : Byte) (r : Nat) : mixColumn a a a a r = a := by
  match r with
  | 0 | 1 | 2 | _ + 3 => simp [mixColumn, mul3, BitVec.xor_comm]

theorem mixf_arkf (s t : Block) : mixf (arkf s t) = arkf (mixf s) (mixf t) :=
  block_ext fun r c => by simp only [mixf_getElem, arkf_getElem, mixColumn_xor]

theorem mixf_replicate (a : Byte) : mixf (Vector.replicate 16 a) = Vector.replicate 16 a :=
  block_ext fun r c => by simp only [mixf_getElem, Vector.getElem_replicate, mixColumn_self]

theorem mixf_column_congr {s t : Block} {c : Fin 4} (h : ∀ r : Fin 4, s[4 * c.val + r.val] = t[4 * c.val + r.val])
    (r : Fin 4) : (mixf s)[4 * c.val + r.val] = (mixf t)[4 * c.val + r.val] := by
  have h0 : s[4 * c.val] = t[4 * c.val] := h 0
  have h1 : s[4 * c.val + 1] = t[4 * c.val + 1] := h 1
  have h2 : s[4 * c.val + 2] = t[4 * c.val + 2] := h 2
  have h3 : s[4 * c.val + 3] = t[4 * c.val + 3] := h 3
  simp only [mixf_getElem, h0, h1, h2, h3]

/-- A column of equal bytes goes where it goes in a value of equal bytes, which is fixed. -/
theorem mixf_equal_column {s : Block} {c : Fin 4} {a : Byte} (h : ∀ r : Fin 4, s[4 * c.val + r.val] = a) (r : Fin 4) :
    (mixf s)[4 * c.val + r.val] = a := by
  have hcol := mixf_column_congr (t := Vector.replicate 16 a) (fun r => by rw [h r, Vector.getElem_replicate]) r
  rw [hcol, mixf_replicate, Vector.getElem_replicate]

/-- Settles O45: each output byte is a row of the matrix on its input column, and the rows are linear. -/
theorem mixColumnsIsLinearByColumn : Obligations.MixColumnsIsLinearByColumn :=
  ⟨fun s c => ⟨mixf_getElem s 0 c, mixf_getElem s 1 c, mixf_getElem s 2 c, mixf_getElem s 3 c⟩, mixf_arkf,
    mixf_replicate 0, fun _ _ _ => mixf_equal_column, fun _ _ _ => mixf_column_congr⟩

/-! ## The words and checks of the elementary commands (30_encoding.md R67, 60_exceptions.md R181, R182) -/

theorem plainWords_of_decode {op : BitVec 4} {i : Instr} (hdec : ∀ w, opField w = op → decode w = decodePlain w i) :
    plainWords op i := by
  intro w hop
  rw [hdec w hop]
  rcases decodePlain_cases w i with ⟨hok, hrsv, hrsel, hnb⟩ | ⟨⟨e, herr⟩, hbad⟩
  · exact ⟨by simp [hrsv, hrsel, hnb], fun _ _ _ => hok⟩
  · refine ⟨fun _ => issue_of_error ((hdec w hop).trans herr), fun hrsel hnb hrsv => ?_⟩
    simp [hrsv, hrsel, hnb] at hbad

theorem keyedWords_of_decode {op : BitVec 4} {mk : BitVec 4 → Instr}
    (hdec : ∀ w, opField w = op → decode w = decodeKeyed w mk) : keyedWords op mk := by
  intro w hop
  rw [hdec w hop]
  rcases decodeKeyed_cases w mk with ⟨hok, hrsv, hrsel, hnb⟩ | ⟨⟨e, herr⟩, hbad⟩
  · exact ⟨by simp [hrsv, Nat.not_lt.mpr hrsel, hnb], fun _ _ _ => hok⟩
  · refine ⟨fun _ => issue_of_error ((hdec w hop).trans herr), fun hrsel hnb hrsv => ?_⟩
    simp [hrsv, Nat.not_lt.mpr hrsel, hnb] at hbad

theorem stateReg_eq_none_of_stv {s : State} (h : stv s = false) : s.stateReg = none := by
  simpa [stv] using h

/-- A command whose effect comes after the check of STATE makes that check. -/
theorem stateCheck_of_effect {i : Instr} {f : Block → Effect} (h : ∀ s, effect i s = .after (stateOperand s) f) :
    stateCheck i := fun s hs => by
  rw [exec_eq_effect, h, stateOperand_of_none (stateReg_eq_none_of_stv hs), Effect.after, Effect.apply_respond]

/-- A command whose effect comes after the check of the named round key and then that of STATE makes both, in this order. -/
theorem keyThenStateChecks_of_effect {mk : BitVec 4 → Instr} {f : BitVec 4 → Block → Block → Effect}
    (h : ∀ k s, effect (mk k) s = .after (keyOperand k s) fun key => .after (stateOperand s) (f k key)) :
    keyThenStateChecks mk := by
  refine ⟨fun k s hk => ?_, fun k i s hi hkv => ?_, fun k i s hi hkv hst => ?_⟩
  · rw [exec_eq_effect, h, keyOperand_of_gt s hk, Effect.after, Effect.apply_respond]
  · have hnone : s.rk[i] = none := by simpa [kv] using hkv
    rw [exec_eq_effect, h, keyOperand_of_none hi hnone, Effect.after, Effect.apply_respond]
  · obtain ⟨key, hkey⟩ := Option.isSome_iff_exists.mp hkv
    rw [exec_eq_effect, h, keyOperand_of_some hi hkey, stateOperand_of_none (stateReg_eq_none_of_stv hst), Effect.after,
      Effect.after, Effect.apply_respond]

/-! ## ARK, SUB, SHR and MIX (R92, R94, R97, R101) -/

/-- Settles O21: ARK is AddRoundKey on STATE and the named key, after the checks of both. -/
theorem arkAddsTheNamedRoundKey : Obligations.ArkAddsTheNamedRoundKey :=
  ⟨keyedWords_of_decode fun w hop => by simp [decode, hop], keyThenStateChecks_of_effect fun _ _ => rfl,
    fun _ _ _ _ _ hi hkey hx => exec_ark_of_ok (keyOperand_of_some hi hkey) (stateOperand_of_some hx),
    fun x key => ⟨arkf_zero x, arkf_self x, arkf_arkf_cancel x key⟩, by decide⟩

/-- Settles O22: SUB is SubBytes on STATE, after its check; the corner cases are entries of the S-box. -/
theorem subSubstitutesEveryByte : Obligations.SubSubstitutesEveryByte :=
  ⟨plainWords_of_decode fun w hop => by simp [decode, hop], stateCheck_of_effect fun _ => rfl,
    fun _ _ hx => exec_sub_of_ok (stateOperand_of_some hx), sbox_eq_zero_iff, subf_replicate 0x00, subf_replicate 0xFF,
    by decide⟩

/-- Settles O23: SHR is ShiftRows on STATE, after its check; row 0 is rotated by 0. -/
theorem shrRotatesTheRows : Obligations.ShrRotatesTheRows :=
  ⟨plainWords_of_decode fun w hop => by simp [decode, hop], stateCheck_of_effect fun _ => rfl,
    fun _ _ hx => exec_shr_of_ok (stateOperand_of_some hx),
    fun x => ⟨shrf_row_zero x, shrf_fourth x, shrf_of_constant_rows⟩, by decide⟩

/-- Settles O24: MIX is MixColumns on STATE, after its check; MUL2 of `0x80` is the reduction. -/
theorem mixMixesTheColumns : Obligations.MixMixesTheColumns :=
  ⟨plainWords_of_decode fun w hop => by simp [decode, hop], stateCheck_of_effect fun _ => rfl,
    fun _ _ hx => exec_mix_of_ok (stateOperand_of_some hx), fun a r => mixColumn_self a r,
    by decide, by decide, by decide, by decide, by decide⟩

end Sys2Proof.Machine

namespace Sys2Proof.Machine

/-! ## RND, FRND and EncryptBlock (R110 to R114, R140) -/

/-- Settles O46: each is the composition by definition, EncryptBlock once its nine rounds are unrolled. -/
theorem roundsComposeTheTransforms : Obligations.RoundsComposeTheTransforms :=
  ⟨fun _ _ => ⟨rfl, rfl⟩, fun _ _ => rfl⟩

/-- A command whose effect comes after the checks of a round key and of STATE has that effect when both are loaded, whichever
of the 11 keys is named (R114). -/
theorem exec_of_loaded {mk : BitVec 4 → Instr} {f : BitVec 4 → Block → Block → Effect}
    (h : ∀ k s, effect (mk k) s = .after (keyOperand k s) fun key => .after (stateOperand s) (f k key))
    {k : BitVec 4} {i : Fin 11} {s : State} {key x : Block} (hi : i.val = k.toNat) (hkey : s.rk[i] = some key)
    (hx : s.stateReg = some x) : exec (mk k) s = .next ((f k key x).apply s) := by
  rw [exec_eq_effect, h, keyOperand_of_some hi hkey, stateOperand_of_some hx, Effect.after, Effect.after]

theorem effect_rnd (k : BitVec 4) (s : State) :
    effect (.rnd k) s = .after (keyOperand k s) fun key => .after (stateOperand s) fun x => roundEffect k x key := rfl

theorem effect_frnd (k : BitVec 4) (s : State) :
    effect (.frnd k) s = .after (keyOperand k s) fun key => .after (stateOperand s) fun x => finalRoundEffect k x key := rfl

/-- Settles O25: RND is a standard round on STATE and the named key, after the checks of both; its events are those of its
effect. -/
theorem rndAppliesAStandardRound : Obligations.RndAppliesAStandardRound :=
  ⟨keyedWords_of_decode fun w hop => by simp [decode, hop], keyThenStateChecks_of_effect effect_rnd,
    fun _ _ _ _ _ hi hkey hx => by rw [exec_of_loaded effect_rnd hi hkey hx, roundEffect, Effect.apply_write]; rfl,
    by decide⟩

/-- Settles O26: FRND is a final round on STATE and the named key, after the checks of both; its events are those of its
effect. -/
theorem frndAppliesAFinalRound : Obligations.FrndAppliesAFinalRound :=
  ⟨keyedWords_of_decode fun w hop => by simp [decode, hop], keyThenStateChecks_of_effect effect_frnd,
    fun _ _ _ _ _ hi hkey hx => by rw [exec_of_loaded effect_frnd hi hkey hx, finalRoundEffect, Effect.apply_write]; rfl,
    by decide⟩

end Sys2Proof.Machine

namespace Sys2Proof.Machine

/-! ## NOP, LDST, RDST and LDRK (43_transfer.md R120 to R123) -/

/-- Settles O17: NOP is a response alone; READY is the one bit of STATUS that is then 1 after reset. -/
theorem nopOnlyClearsLastrsp : Obligations.NopOnlyClearsLastrsp :=
  ⟨plainWords_of_decode fun w hop => by simp [decode, hop], fun _ => rfl, respondUnspec State.reset, rfl, by decide⟩

/-- LDST echoes its operand, because the bus word of the loaded bytes is `din` again. -/
theorem exec_ldst_echoes_din (s : State) : exec .ldst s = .next
    { s with stateReg := some (bytes s.din), lastRsp := .ok, responses := s.responses ++ [⟨.ok, s.din⟩] } := by
  rw [exec, execLdst, respondState_writeState, respondData, word_bytes]
  rfl

/-- Settles O18: STATE is the bytes of din in bus order, and the word of these bytes is the response. -/
theorem ldstLoadsStateFromDin : Obligations.LdstLoadsStateFromDin :=
  ⟨plainWords_of_decode fun w hop => by simp [decode, hop], exec_ldst_echoes_din,
    fun d i => bytes_getElem d i.val i.isLt, by decide, by decide, by decide⟩

/-- Settles O19: RDST is the word of STATE, after its check. -/
theorem rdstReturnsState : Obligations.RdstReturnsState :=
  ⟨plainWords_of_decode fun w hop => by simp [decode, hop], stateCheck_of_effect fun _ => rfl,
    fun _ _ hx => exec_rdst_of_some hx, by decide⟩

theorem exec_ldrk_of_gt {k : BitVec 4} (h : 10 < k.toNat) (s : State) : exec (.ldrk k) s = .next (takeError .badField s) := by
  simp only [exec, execLdrk, keyIndex_of_gt h]

theorem exec_ldrk_of_le {k : BitVec 4} {i : Fin 11} (h : i.val = k.toNat) (s : State) :
    exec (.ldrk k) s = .next (respondUnspec (writeKey i (bytes s.din) s)) :=
  exec_ldrk_of_index (keyIndex_of_le h) s

theorem writeKey_getElem_same (i : Fin 11) (x : Block) (s : State) : (writeKey i x s).rk[i] = some x := by
  simp

theorem writeKey_getElem_of_ne {i j : Fin 11} (h : j ≠ i) (x : Block) (s : State) : (writeKey i x s).rk[j] = s.rk[j] := by
  simp [Fin.val_ne_of_ne h.symm]

/-- The key that is written is loaded afterwards, so KALL is 1 just when all the others were (10_state.md R28). -/
theorem kall_writeKey (i : Fin 11) (x : Block) (s : State) :
    kall (writeKey i x s) = true ↔ ∀ j : Fin 11, j ≠ i → kv s j = true := by
  have hsame : kv (writeKey i x s) i = true := by rw [kv, writeKey_getElem_same, Option.isSome_some]
  have hother : ∀ j, j ≠ i → kv (writeKey i x s) j = kv s j := fun j hj => by rw [kv, writeKey_getElem_of_ne hj, kv]
  rw [kall_eq_true]
  refine ⟨fun h j hj => hother j hj ▸ h j, fun h j => ?_⟩
  by_cases hj : j = i
  · rw [hj, hsame]
  · rw [hother j hj, h j hj]

/-- Settles O20: LDRK writes the round key that RSEL names; which keys are loaded decides KALL, and not their order. -/
theorem ldrkLoadsTheNamedRoundKey : Obligations.LdrkLoadsTheNamedRoundKey := by
  refine ⟨keyedWords_of_decode fun w hop => by simp [decode, hop], fun k s h => exec_ldrk_of_gt h s,
    fun k i s h => exec_ldrk_of_le h s, fun k i s t hi ht => ?_,
    _, exec_ldrk_of_le (k := 1) (i := 1) rfl _, writeKey_getElem_same 1 _ _, (status_kv _ 1).trans rfl⟩
  rw [exec_ldrk_of_le hi] at ht
  cases ht
  exact ⟨writeKey_getElem_same i _ s, fun j hj => writeKey_getElem_of_ne hj _ s, kall_writeKey i _ s⟩

end Sys2Proof.Machine

namespace Sys2Proof.Machine

/-! ## Zero padding (44_block_driver.md R143) -/

@[simp] theorem pad_getElem (x : Block) (n i : Nat) (hi : i < 16) : (pad x n)[i] = if i < n then x[i] else 0 := by
  simp [pad]

/-- Two padded values are equal when their padded bytes are. -/
theorem pad_eq_pad {x y : Block} {m n : Nat}
    (h : ∀ i : Fin 16, (if i.val < m then x[i] else 0) = if i.val < n then y[i] else 0) : pad x m = pad y n :=
  Vector.ext fun i hi => by rw [pad_getElem, pad_getElem]; exact h ⟨i, hi⟩

theorem pad_sixteen (x : Block) : pad x 16 = x :=
  Vector.ext fun i hi => by rw [pad_getElem, if_pos hi]

/-- The bytes from `n` on do not matter. -/
theorem pad_congr {x y : Block} {n : Nat} (h : ∀ i : Fin 16, i.val < n → x[i] = y[i]) : pad x n = pad y n :=
  pad_eq_pad fun i => by
    split
    · exact h i ‹_›
    · rfl

/-- Trailing zero bytes may be counted or not (R142). -/
theorem pad_of_trailing_zeros {x : Block} {n m : Nat} (hnm : n ≤ m)
    (h : ∀ i : Fin 16, n ≤ i.val → i.val < m → x[i] = 0) : pad x m = pad x n :=
  pad_eq_pad fun i => by
    rcases Nat.lt_or_ge i.val n with hn | hn
    · rw [if_pos (Nat.lt_of_lt_of_le hn hnm), if_pos hn]
    · rw [if_neg (Nat.not_lt.mpr hn)]
      split
      · exact h i hn ‹_›
      · rfl

/-! ## The sequencer (R140, R141) -/

/-- Along a linked list of steps the sequencer is, after `n` of them, at the next one with the first `n` transforms done. -/
theorem seqRun_linked_take (E : ExpandedKey) {qs : List SeqPos} (h : linked qs = true) {n : Nat} (hn : n ≤ qs.length)
    (x : Block) (tr : List TraceEvent) (s : State) :
    seqRun E n (atStep qs.head? x tr s) =
      atStep qs[n]? (scheduleResult E (qs.take n) x) (tr ++ onTracePort (scheduleEvents E (qs.take n) x)) s := by
  induction n generalizing qs x tr with
  | zero => simp [seqRun, scheduleResult, scheduleEvents, onTracePort_nil, List.head?_eq_getElem?]
  | succ n ih =>
    cases qs with
    | nil => simp at hn
    | cons q qs =>
      simp only [linked, Bool.and_eq_true, beq_iff_eq] at h
      rw [seqRun_succ, List.head?_cons, seqStep_atStep, h.1, ih h.2 (Nat.le_of_succ_le_succ hn), List.append_assoc,
        List.getElem?_cons_succ, List.take_succ_cons, scheduleEvents, scheduleResult, traceEvents_append_onTracePort]

/-- Settles O48: the steps of the schedule follow one another as the sequencer's do, so it runs them one by one. -/
theorem sequencerRunsTheSchedule : Obligations.SequencerRunsTheSchedule := by
  refine ⟨schedule_length, fun E p s => ⟨fun n hn => ?_, seqRun_block E p s⟩⟩
  have hrun := seqRun_linked_take E schedule_linked hn p s.trace s
  exact ⟨congrArg State.seq hrun, congrArg State.stateReg hrun⟩

/-! ## ENCB on its own (R142, R144, R145) -/

theorem countedWords_of_decode {op : BitVec 4} {mk : BitVec 5 → Instr}
    (hdec : ∀ w, opField w = op → decode w = decodeCounted w mk) : countedWords op mk := by
  intro w hop
  rw [hdec w hop]
  rcases decodeCounted_cases w mk with ⟨hok, hrsv, hrsel, hnb⟩ | ⟨⟨e, herr⟩, hbad⟩
  · exact ⟨by simp [hrsv, hrsel, hnb], fun _ _ _ _ => hok⟩
  · refine ⟨fun _ => issue_of_error ((hdec w hop).trans herr), fun hrsel hrsv hlow hhigh => ?_⟩
    simp [hrsv, hrsel, Nat.not_lt.mpr hhigh, Nat.one_le_iff_ne_zero.mp hlow] at hbad

theorem exec_encb_of_not_mem {n : BitVec 5} (s : State) (h : ¬(1 ≤ n.toNat ∧ n.toNat ≤ 16)) :
    exec (.encb n) s = .next (takeError .badField s) := by
  simp only [exec, execEncb, blockOperand_of_not_mem s h]

theorem exec_encb_of_not_kall {n : BitVec 5} {s : State} (hn : 1 ≤ n.toNat ∧ n.toNat ≤ 16) (h : kall s = false) :
    exec (.encb n) s = .next (takeError .keyUninit s) := by
  simp only [exec, execEncb, blockOperand_of_mem s hn, allKeysOperand_of_not_kall h]

/-- The known-answer vector as a value (95_test_vectors.md V1). -/
theorem encf_v1 : word (encf (bytes 0x00112233445566778899aabbccddeeff) v1Keys) = 0x69c4e0d86a7b0430d8cdb78070b4c55a := by
  decide +kernel

/-- Settles O27: the two checks in their order, and then the block the sequencer leaves; zero bytes at the end of a block are
what padding adds. -/
theorem encbEncryptsOneBlock : Obligations.EncbEncryptsOneBlock :=
  ⟨countedWords_of_decode fun w hop => by simp [decode, hop], fun _ s h => exec_encb_of_not_mem s h,
    fun _ _ hlow hhigh h => exec_encb_of_not_kall ⟨hlow, hhigh⟩ h,
    fun _ _ _ hlow hhigh hE => exec_encb_of_ok ⟨hlow, hhigh⟩ hE, fun _ _ _ => pad_of_trailing_zeros,
    (congrArg (fun p => word (encf p v1Keys)) (pad_sixteen _)).trans encf_v1⟩

/-- Settles O49: ENCB of a full block is EncryptBlock on it, whose value is the vector's. -/
theorem knownAnswerVector : Obligations.KnownAnswerVector := by
  intro s hkeys hdin
  have hword : word (encf (pad (bytes s.din) 16) v1Keys) = 0x69c4e0d86a7b0430d8cdb78070b4c55a := by
    rw [pad_sixteen, hdin, encf_v1]
  exact ⟨_, exec_encb_of_ok (n := 16) (by decide) hkeys, congrArg (fun dout => s.responses ++ [⟨.ok, dout⟩]) hword⟩

/-! ## The result of ENCB depends on its block and the keys (R143, R147) -/

theorem length_flatMap_range (f : Nat → Block) (n : Nat) :
    ((List.range n).flatMap fun j => (f j).toList).length = 16 * n := by
  simp [List.length_flatMap, Nat.mul_comm]

/-- Window `k` of blocks written one after another is block `k`. -/
theorem window_flatMap_range (f : Nat → Block) {n k : Nat} (hk : k < n) :
    window ((List.range n).flatMap fun j => (f j).toList) k = f k := by
  refine Vector.ext fun i hi => ?_
  simp only [window, Vector.getElem_ofFn]
  induction n with
  | zero => cases hk
  | succ n ih =>
    have hlen := length_flatMap_range f n
    simp only [List.range_succ, List.flatMap_append, List.flatMap_singleton]
    rcases Nat.lt_succ_iff_lt_or_eq.mp hk with hlt | rfl
    · rw [List.getD_append _ _ _ _ (by omega), ih hlt]
    · rw [List.getD_append_right _ _ _ _ (by omega), hlen, Nat.add_sub_cancel_left]
      simp [hi]

/-- Block `k` of a ciphertext is the encryption of block `k` of the padded message. -/
theorem window_ecbf {P : List Byte} {k : Nat} (hk : k < blockCount P) (key : Block) :
    window (ecbf P key) k = encf (window (paddedMessage P) k) (Config.keySchedule key) :=
  window_flatMap_range (fun j => encf (window (paddedMessage P) j) (Config.keySchedule key)) hk

/-- Settles O51: the padded block is the same, and so is its encryption with the keys both states hold. -/
theorem encbDependsOnItsBlockAlone : Obligations.EncbDependsOnItsBlockAlone := by
  refine ⟨fun x n i => pad_getElem x n i i.isLt, fun P P' key k hlen hk hwindow => ?_,
    fun n s s' hlow hhigh hkall hrk hbytes => ?_⟩
  · have hk' : k < blockCount P' := by rwa [blockCount, ← hlen]
    rw [window_ecbf hk, window_ecbf hk', hwindow]
  · obtain ⟨E, hE⟩ := exists_keys_of_kall hkall
    have hE' : ∀ k : Fin 11, s'.rk[k] = some (E k) := hrk ▸ hE
    have hpad : pad (bytes s'.din) n.toNat = pad (bytes s.din) n.toNat := pad_congr hbytes
    refine ⟨_, _, _, exec_encb_of_ok ⟨hlow, hhigh⟩ hE, exec_encb_of_ok ⟨hlow, hhigh⟩ hE', rfl, ?_, ?_⟩ <;> rw [hpad]

/-! ## ENCB and the stepped sequence (R146): both run the schedule -/

theorem scheduleResult_append (E : ExpandedKey) (ps qs : List SeqPos) (x : Block) :
    scheduleResult E (ps ++ qs) x = scheduleResult E qs (scheduleResult E ps x) := by
  induction ps generalizing x with
  | nil => rfl
  | cons q ps ih => exact ih _

theorem scheduleEvents_append (E : ExpandedKey) (ps qs : List SeqPos) (x : Block) :
    scheduleEvents E (ps ++ qs) x = scheduleEvents E ps x ++ scheduleEvents E qs (scheduleResult E ps x) := by
  induction ps generalizing x with
  | nil => rfl
  | cons q ps ih => exact congrArg (_ :: ·) (ih _)

/-- The data of events on the trace port. -/
def portData (events : List TraceEvent) : List BusWord := (onTracePort events).map TraceEvent.data

theorem portData_nil : portData [] = [] := by
  rw [portData, onTracePort_nil, List.map_nil]

theorem portData_append (es fs : List TraceEvent) : portData (es ++ fs) = portData es ++ portData fs := by
  unfold portData onTracePort
  split <;> simp

theorem portData_congr {es fs : List TraceEvent} (h : es.map TraceEvent.data = fs.map TraceEvent.data) :
    portData es = portData fs := by
  unfold portData onTracePort
  split
  · exact h
  · rfl

/-- What can be seen of a core that started in `s`, had STATE = `p`, has since run the steps `qs` with the round keys `E`, and
has ended `m` commands. The tags of its events are left open. -/
structure HasRun (E : ExpandedKey) (p : Block) (s : State) (m : Nat) (qs : List SeqPos) (t : State) : Prop where
  stateReg  : t.stateReg = some (scheduleResult E qs p)
  rk        : t.rk = s.rk
  err       : t.err = s.err
  lastRsp   : t.lastRsp = .ok
  rst       : t.rst = false
  trace     : t.trace.map TraceEvent.data = s.trace.map TraceEvent.data ++ portData (scheduleEvents E qs p)
  count     : t.responses.length = s.responses.length + m
  response  : t.responses.getLast? = some ⟨.ok, word (scheduleResult E qs p)⟩

theorem HasRun.stv_eq {E : ExpandedKey} {p : Block} {s t : State} {m : Nat} {qs : List SeqPos} (h : HasRun E p s m qs t) :
    stv t = true := by
  rw [stv, h.stateReg, Option.isSome_some]

/-- The command runs the steps `qs` on the STATE it finds, but for the tags of its events. -/
def RunsSteps (E : ExpandedKey) (i : Instr) (qs : List SeqPos) : Prop :=
  ∀ (s : State) (x : Block), (∀ k : Fin 11, s.rk[k] = some (E k)) → s.stateReg = some x →
    ∃ es, exec i s = .next ((Effect.write (scheduleResult E qs x) es).apply s) ∧
      es.map TraceEvent.data = (scheduleEvents E qs x).map TraceEvent.data

/-- A ready core runs the command whose word is next. -/
theorem step_encode {s : State} {i : Instr} {d : BusWord} {rest : List HostEvent} (hwf : i.wellFormed = true)
    (hrst : s.rst = false) (hin : s.inputs = .command (encode i) d :: rest) :
    step s = exec i { s with inputs := rest, din := d } := by
  rw [step_command hrst hin, issue_of_ok ((decode_encode_iff i).mpr hwf)]

theorem steps_succ {s t : State} (h : step s = .next t) (n : Nat) : steps (n + 1) s = steps n t := by
  simp only [steps, h]

theorem effect_ark (k : BitVec 4) (s : State) :
    effect (.ark k) s = .after (keyOperand k s) fun key => .after (stateOperand s) fun x =>
      elementaryEffect k .ark (arkf x key) := rfl

theorem runsSteps_ark (E : ExpandedKey) {k : BitVec 4} {r : Fin 11} (hr : r.val = k.toNat) :
    RunsSteps E (.ark k) [⟨r, .ark⟩] :=
  fun _ _ hE hx => ⟨_, exec_of_loaded effect_ark hr (hE r) hx, rfl⟩

theorem runsSteps_rnd (E : ExpandedKey) {k : BitVec 4} {r : Fin 11} (hr : r.val = k.toNat) :
    RunsSteps E (.rnd k) [⟨r, .sub⟩, ⟨r, .shr⟩, ⟨r, .mix⟩, ⟨r, .ark⟩] :=
  fun _ _ hE hx => ⟨_, exec_of_loaded effect_rnd hr (hE r) hx, rfl⟩

theorem runsSteps_frnd (E : ExpandedKey) {k : BitVec 4} {r : Fin 11} (hr : r.val = k.toNat) :
    RunsSteps E (.frnd k) [⟨r, .sub⟩, ⟨r, .shr⟩, ⟨r, .ark⟩] :=
  fun _ _ hE hx => ⟨_, exec_of_loaded effect_frnd hr (hE r) hx, rfl⟩

section
variable {E : ExpandedKey} {p : Block} {s t : State} {m : Nat} {qs ps : List SeqPos}

/-- A command that runs `ps` takes a core that has run `qs` to one that has run both. -/
theorem HasRun.step_part (ht : HasRun E p s m qs t) (hE : ∀ k : Fin 11, s.rk[k] = some (E k)) {i : Instr}
    (hwf : i.wellFormed = true) (hi : RunsSteps E i ps) {d : BusWord} {rest : List HostEvent}
    (hin : t.inputs = .command (encode i) d :: rest) :
    ∃ u, step t = .next u ∧ u.inputs = rest ∧ HasRun E p s (m + 1) (qs ++ ps) u := by
  obtain ⟨es, hexec, hes⟩ := hi { t with inputs := rest, din := d } _ (ht.rk ▸ hE) ht.stateReg
  rw [← scheduleResult_append] at hexec
  have herr : latchError t.err .ok = s.err := (latchError_ok _).trans ht.err
  refine ⟨_, (step_encode hwf ht.rst hin).trans hexec, rfl, rfl, ht.rk, herr, rfl, ht.rst, ?_, ?_, List.getLast?_concat⟩
  · rw [scheduleEvents_append, portData_append, ← portData_congr hes, ← List.append_assoc, ← ht.trace]
    exact List.map_append
  · rw [← Nat.add_assoc, ← ht.count]
    exact List.length_append

/-- The same of a list of commands, each with the steps it runs. -/
theorem HasRun.steps_parts (hE : ∀ k : Fin 11, s.rk[k] = some (E k)) {parts : List (Instr × List SeqPos)}
    (hparts : ∀ c ∈ parts, c.1.wellFormed = true ∧ RunsSteps E c.1 c.2) (ht : HasRun E p s m qs t)
    (hin : t.inputs = parts.map fun c => .command (encode c.1) 0) :
    ∃ u, steps parts.length t = .next u ∧ HasRun E p s (m + parts.length) (qs ++ parts.flatMap (·.2)) u := by
  induction parts generalizing m qs t with
  | nil => exact ⟨t, rfl, by simpa using ht⟩
  | cons c parts ih =>
    obtain ⟨⟨hwf, hruns⟩, hparts⟩ := List.forall_mem_cons.mp hparts
    obtain ⟨u, hstep, hu, hrun⟩ := ht.step_part hE hwf hruns hin
    obtain ⟨v, hsteps, hrun⟩ := ih hparts hrun hu
    refine ⟨v, (steps_succ hstep _).trans hsteps, ?_⟩
    rwa [List.length_cons, List.flatMap_cons, ← List.append_assoc, Nat.add_comm parts.length, ← Nat.add_assoc]

end

/-- The commands after LDST of the stepped sequence, each with its part of the schedule. -/
def steppedParts : List (Instr × List SeqPos) :=
  [(.ark 0, [⟨0, .ark⟩])] ++
  ([1, 2, 3, 4, 5, 6, 7, 8, 9] : List (Fin 11)).map
    (fun r => (.rnd (BitVec.ofNat 4 r.val), [⟨r, .sub⟩, ⟨r, .shr⟩, ⟨r, .mix⟩, ⟨r, .ark⟩])) ++
  [(.frnd 10, [⟨10, .sub⟩, ⟨10, .shr⟩, ⟨10, .ark⟩])]

theorem steppedCommands_eq (w : BusWord) :
    steppedCommands w = .command (encode .ldst) w :: steppedParts.map fun c => .command (encode c.1) 0 := rfl

theorem steppedParts_schedule : steppedParts.flatMap (·.2) = schedule := rfl

theorem steppedParts_run (E : ExpandedKey) : ∀ c ∈ steppedParts, c.1.wellFormed = true ∧ RunsSteps E c.1 c.2 := by
  have hwf : ∀ c ∈ steppedParts, c.1.wellFormed = true := by decide
  refine fun c hc => ⟨hwf c hc, ?_⟩
  simp only [steppedParts, List.mem_append, List.mem_singleton, List.mem_map] at hc
  rcases hc with (rfl | ⟨r, -, rfl⟩) | rfl
  · exact runsSteps_ark E rfl
  · exact runsSteps_rnd E (by simp; omega)
  · exact runsSteps_frnd E rfl

section
variable {E : ExpandedKey} {s : State}

/-- ENCB runs the schedule in one command. -/
theorem hasRun_encb (hE : ∀ k : Fin 11, s.rk[k] = some (E k)) (hrst : s.rst = false) (w : BusWord) :
    ∃ t, steps 1 { s with inputs := [.command (encode (.encb 16)) w] } = .next t ∧
      HasRun E (bytes w) s 1 schedule t := by
  have hstep := (step_encode (i := .encb 16) (s := { s with inputs := [.command (encode (.encb 16)) w] }) rfl hrst rfl).trans
    (exec_encb_of_ok (s := { s with inputs := [], din := w }) (by decide) hE)
  have hpad : pad (bytes w) (16 : BitVec 5).toNat = bytes w := pad_sixteen _
  refine ⟨_, steps_succ hstep 0, ?_⟩
  rw [hpad]
  exact ⟨rfl, rfl, rfl, rfl, hrst, List.map_append, List.length_append, List.getLast?_concat⟩

/-- LDST gives the stepped sequence its STATE. -/
theorem hasRun_ldst (hrst : s.rst = false) (w : BusWord) (rest : List HostEvent) :
    ∃ t, step { s with inputs := .command (encode .ldst) w :: rest } = .next t ∧ t.inputs = rest ∧
      HasRun E (bytes w) s 1 [] t := by
  have hstep := (step_encode (i := .ldst) (s := { s with inputs := .command (encode .ldst) w :: rest }) rfl hrst rfl).trans
    (exec_ldst_echoes_din _)
  refine ⟨_, hstep, rfl, rfl, rfl, rfl, rfl, hrst, ?_, List.length_append, ?_⟩
  · rw [scheduleEvents, portData_nil, List.append_nil]
  · rw [scheduleResult, word_bytes]
    exact List.getLast?_concat

/-- The stepped sequence runs the schedule in twelve. -/
theorem hasRun_stepped (hE : ∀ k : Fin 11, s.rk[k] = some (E k)) (hrst : s.rst = false) (w : BusWord) :
    ∃ t, steps 12 { s with inputs := steppedCommands w } = .next t ∧ HasRun E (bytes w) s 12 schedule t := by
  obtain ⟨t, hstep, ht, hrun⟩ := hasRun_ldst hrst w (steppedParts.map fun c => .command (encode c.1) 0)
  obtain ⟨u, hsteps, hrun⟩ := hrun.steps_parts hE (steppedParts_run E) ht
  rw [steppedParts_schedule, List.nil_append] at hrun
  exact ⟨u, (steps_succ hstep 11).trans hsteps, hrun⟩

end

/-- Settles O50: both leave a core that has run the schedule from the bytes of `w`. -/
theorem encbEqualsTheSteppedSequence : Obligations.EncbEqualsTheSteppedSequence := by
  intro s w hrst hkall
  obtain ⟨E, hE⟩ := exists_keys_of_kall hkall
  obtain ⟨t, hsteps, ht⟩ := hasRun_encb hE hrst w
  obtain ⟨u, hsteps', hu⟩ := hasRun_stepped hE hrst w
  exact ⟨t, u, hsteps, hsteps', ht.stateReg.trans hu.stateReg.symm, ht.stv_eq, hu.stv_eq, ht.rk.trans hu.rk.symm,
    ht.err.trans hu.err.symm, ht.lastRsp.trans hu.lastRsp.symm, ht.trace.trans hu.trace.symm, ht.count, hu.count,
    ht.response.trans hu.response.symm⟩

end Sys2Proof.Machine

namespace Sys2Proof.Machine

/-! ## The padded length and the ciphertext's length (45_message_driver.md R161, R163) -/

/-- The message procedure's block `j` of the ciphertext (R160). -/
def cipherBlock (P : List Byte) (E : ExpandedKey) (j : Nat) : Block := encf (window (paddedMessage P) j) E

theorem ecbWith_eq_flatMap (P : List Byte) (E : ExpandedKey) :
    ecbWith P E = (List.range (blockCount P)).flatMap fun j => (cipherBlock P E j).toList := rfl

theorem ecbf_nil (key : Block) : ecbf [] key = [] := rfl

theorem length_ecbf (P : List Byte) (key : Block) : (ecbf P key).length = paddedLength P.length := by
  rw [ecbf, ecbWith_eq_flatMap, length_flatMap_range, blockCount_paddedLength]

theorem dvd_paddedLength (len : Nat) : 16 ∣ paddedLength len := Nat.dvd_mul_right 16 _

theorem le_paddedLength (len : Nat) : len ≤ paddedLength len := by
  simp only [paddedLength]; omega

theorem paddedLength_le {len m : Nat} (hm : 16 ∣ m) (h : len ≤ m) : paddedLength len ≤ m := by
  simp only [paddedLength]; omega

theorem paddedLength_eq_self_iff (len : Nat) : paddedLength len = len ↔ 16 ∣ len :=
  ⟨fun h => h ▸ dvd_paddedLength len, fun h => Nat.le_antisymm (paddedLength_le h le_rfl) (le_paddedLength len)⟩

/-- Settles O52: `paddedLength` is a multiple, is large enough, and is below every other such multiple. -/
theorem paddedLengthIsTheSmallestMultiple : Obligations.PaddedLengthIsTheSmallestMultiple :=
  ⟨fun len => ⟨dvd_paddedLength len, le_paddedLength len, fun _ => paddedLength_le⟩, rfl, rfl, rfl, rfl, ecbf_nil⟩

/-- Settles O53: the ciphertext has 16 bytes for each block, so all of it is about the padded length. -/
theorem ciphertextHasThePaddedLength : Obligations.CiphertextHasThePaddedLength := by
  intro P key
  rw [length_ecbf]
  exact ⟨rfl, Nat.mod_eq_zero_of_dvd (dvd_paddedLength _), le_paddedLength _, paddedLength_eq_self_iff _⟩

/-! ## Zero padding is ambiguous, and equal blocks show (R165, 44_block_driver.md R147) -/

/-- Zero bytes behind a buffer cannot be told from reading past its end. -/
theorem getD_append_zeros (P : List Byte) (n i : Nat) : (P ++ List.replicate n 0).getD i 0 = P.getD i 0 := by
  rcases Nat.lt_or_ge i P.length with h | h
  · exact List.getD_append _ _ _ _ h
  · rw [List.getD_append_right _ _ _ _ h, List.getD_eq_default _ _ h, List.getD_eq_getElem?_getD,
      List.getElem?_getD_replicate_default_eq]

theorem window_append_zeros (P : List Byte) (n j : Nat) : window (P ++ List.replicate n 0) j = window P j := by
  simp only [window, getD_append_zeros]

theorem window_paddedMessage (P : List Byte) (j : Nat) : window (paddedMessage P) j = window P j :=
  window_append_zeros P _ j

theorem paddedLength_of_le {len m : Nat} (h : len ≤ m) (hm : m ≤ paddedLength len) : paddedLength m = paddedLength len := by
  simp only [paddedLength] at hm ⊢; omega

theorem ecbf_append_zeros {P : List Byte} {n : Nat} (h : P.length + n ≤ paddedLength P.length) (key : Block) :
    ecbf (P ++ List.replicate n 0) key = ecbf P key := by
  have hlen : paddedLength (P ++ List.replicate n 0).length = paddedLength P.length := by
    rw [List.length_append, List.length_replicate]
    exact paddedLength_of_le (Nat.le_add_right _ _) h
  simp only [ecbf, ecbWith, blockCount, hlen, window_paddedMessage, window_append_zeros]

/-- Settles O56: zeros behind the message are what padding adds, and a ciphertext block is a function of its block and the key. -/
theorem knownWeaknessesAreKept : Obligations.KnownWeaknessesAreKept := by
  refine ⟨fun P n key h => ecbf_append_zeros h key, fun P key h => ?_, fun P P' key i j hi hj hwindow => ?_⟩
  · rw [length_ecbf, (paddedLength_eq_self_iff _).mpr h]
  · rw [window_ecbf hi, window_ecbf hj, hwindow]

/-! ## The core between two commands of the procedure (R162) -/

/-- The core is ready, has nothing else to do, and RK holds the expanded key `E`. -/
structure ReadyWith (E : ExpandedKey) (s : State) : Prop where
  rst    : s.rst = false
  inputs : s.inputs = []
  keys   : ∀ k : Fin 11, s.rk[k] = some (E k)

theorem ReadyWith.kall {E : ExpandedKey} {s : State} (h : ReadyWith E s) : kall s = true :=
  kall_eq_true.mpr fun k => by rw [kv, h.keys k, Option.isSome_some]

/-! ### Loading the keys -/

/-- `ldrk k` writes round key `k` and answers. -/
theorem issue_ldrk (k : Fin 11) (x : Block) (s : State) :
    issue (encode (.ldrk (BitVec.ofNat 4 k.val))) (word x) s =
      .next (respondUnspec (writeKey k x { s with din := word x })) := by
  have hk : k.val = (BitVec.ofNat 4 k.val).toNat := by simp only [BitVec.toNat_ofNat]; omega
  have hwf : (Instr.ldrk (BitVec.ofNat 4 k.val)).wellFormed = true :=
    decide_eq_true (hk ▸ Nat.le_of_lt_succ k.isLt)
  rw [issue_of_ok ((decode_encode_iff _).mpr hwf), exec_ldrk_of_le hk, bytes_word]

/-- Loading some round keys of `E` leaves `E` where they went and where it was. -/
theorem drive_ldrkCommands (E : ExpandedKey) (ks : List (Fin 11)) {s : State} (hrst : s.rst = false) (hin : s.inputs = [])
    (hkeys : ∀ k : Fin 11, k ∈ ks ∨ s.rk[k] = some (E k)) :
    ReadyWith E (drive (ks.map fun k => ldrkCommand k (E k)) s) := by
  induction ks generalizing s with
  | nil =>
    rw [List.map_nil, drive_nil hin]
    exact ⟨hrst, hin, fun k => (hkeys k).resolve_left List.not_mem_nil⟩
  | cons k ks ih =>
    rw [List.map_cons, ldrkCommand, drive_cons hrst hin (issue_ldrk k (E k) s)]
    refine ih hrst hin fun j => ?_
    by_cases hj : j = k
    · exact .inr (hj ▸ writeKey_getElem_same k (E k) _)
    · refine (hkeys j).imp (fun h => (List.mem_cons.mp h).resolve_left hj) fun h => ?_
      exact (writeKey_getElem_of_ne hj (E k) _).trans h

theorem drive_ldkeyCommands (E : ExpandedKey) {s : State} (hrst : s.rst = false) (hin : s.inputs = []) :
    ReadyWith E (drive (ldkeyCommands E) s) :=
  drive_ldrkCommands E (List.finRange 11) hrst hin fun k => .inl (List.mem_finRange k)

/-! ### Running blocks -/

/-- Every block of the procedure has 1 to 16 bytes of the message. -/
theorem blockBytes_mem {P : List Byte} {j : Nat} (hj : j < blockCount P) : 1 ≤ blockBytes P j ∧ blockBytes P j ≤ 16 := by
  simp only [blockCount, paddedLength, blockBytes] at hj ⊢; omega

/-- The core pads the operand to the block of the padded message, whatever the filler is. -/
theorem pad_blockWord (P : List Byte) (filler : Nat → Byte) (j : Nat) :
    pad (bytes (blockWord P filler j)) (blockBytes P j) = window (paddedMessage P) j := by
  rw [window_paddedMessage, blockWord, bytes_word]
  refine Vector.ext fun i hi => ?_
  simp only [pad_getElem, window, Vector.getElem_ofFn]
  split
  · rfl
  · next hi' =>
    rw [List.getD_eq_default]
    simp only [blockBytes] at hi'
    omega

/-- The response to `encb` for block `j`. -/
def blockResponse (P : List Byte) (E : ExpandedKey) (j : Nat) : Response := ⟨.ok, word (cipherBlock P E j)⟩

theorem newResponses_of_append {s t : State} {rs : List Response} (h : t.responses = s.responses ++ rs) :
    newResponses s t = rs := by
  rw [newResponses, h, List.drop_left]

section
variable {E : ExpandedKey} {s : State} {P : List Byte}

theorem ReadyWith.issue_encb (h : ReadyWith E s) {j : Nat} (hj : j < blockCount P) (filler : Nat → Byte) :
    ∃ t, issue (encode (.encb (BitVec.ofNat 5 (blockBytes P j)))) (blockWord P filler j) s = .next t ∧
      ReadyWith E t ∧ t.responses = s.responses ++ [blockResponse P E j] := by
  have hmem := blockBytes_mem hj
  have hn : (BitVec.ofNat 5 (blockBytes P j)).toNat = blockBytes P j := by simp only [BitVec.toNat_ofNat]; omega
  have hmem' : 1 ≤ (BitVec.ofNat 5 (blockBytes P j)).toNat ∧ (BitVec.ofNat 5 (blockBytes P j)).toNat ≤ 16 := by rwa [hn]
  have hwf : (Instr.encb (BitVec.ofNat 5 (blockBytes P j))).wellFormed = true := decide_eq_true hmem'
  refine ⟨_, (issue_of_ok ((decode_encode_iff _).mpr hwf) _ s).trans (exec_encb_of_ok hmem' h.keys),
    ⟨h.rst, h.inputs, h.keys⟩, ?_⟩
  rw [hn, pad_blockWord]
  rfl

/-- A loaded core answers each block with its ciphertext and stays loaded. -/
theorem ReadyWith.drive_blocks (h : ReadyWith E s) (filler : Nat → Byte) {js : List Nat}
    (hjs : ∀ j ∈ js, j < blockCount P) :
    ReadyWith E (drive (js.map (blockCommand P filler)) s) ∧
      (drive (js.map (blockCommand P filler)) s).responses = s.responses ++ js.map (blockResponse P E) := by
  induction js generalizing s with
  | nil => simpa [drive_nil h.inputs] using h
  | cons j js ih =>
    obtain ⟨hj, hjs⟩ := List.forall_mem_cons.mp hjs
    obtain ⟨t, hissue, ht, hresp⟩ := h.issue_encb hj filler
    rw [List.map_cons, blockCommand, drive_cons h.rst h.inputs hissue]
    obtain ⟨hready, hresps⟩ := ih ht hjs
    exact ⟨hready, by rw [hresps, hresp, List.append_assoc, List.map_cons, List.singleton_append]⟩

end

/-! ## One core (R160, R162) -/

theorem collect_blockResponses (P : List Byte) (E : ExpandedKey) (js : List Nat) :
    collect js.length (js.map (blockResponse P E)) = some (js.flatMap fun j => (cipherBlock P E j).toList) := by
  induction js with
  | nil => rfl
  | cons j js ih => simp [collect, ih, blockResponse]

theorem encryptMessage_of_length_ne {key : List Byte} (h : key.length ≠ 16) (P : List Byte) (filler : Nat → Byte)
    (c : Option Nat) (s : State) : encryptMessage key P filler c s = (none, s) := by
  rw [encryptMessage, if_pos h]

theorem encryptMessage_nil {key : List Byte} (h : key.length = 16) (filler : Nat → Byte) (c : Option Nat) (s : State) :
    encryptMessage key [] filler c s = (some [], s) := by
  rw [encryptMessage, if_neg (not_not.mpr h), if_pos rfl]

theorem encryptMessage_of_ne_nil {key P : List Byte} (h : key.length = 16) (hP : P ≠ []) (filler : Nat → Byte)
    (c : Option Nat) (s : State) :
    encryptMessage key P filler c s = runBlocks P filler c (drive (ldkeyCommands (Config.keySchedule (window key 0))) s) := by
  rw [encryptMessage, if_neg (not_not.mpr h), if_neg hP]

theorem ReadyWith.runBlocks_eq {E : ExpandedKey} {s : State} (h : ReadyWith E s) (P : List Byte) (filler : Nat → Byte) :
    (runBlocks P filler none s).1 = some (ecbWith P E) := by
  obtain ⟨-, hresp⟩ := h.drive_blocks filler (js := List.range (blockCount P)) fun j => List.mem_range.mp
  have hcollect := collect_blockResponses P E (List.range (blockCount P))
  rw [List.length_range, ← newResponses_of_append hresp] at hcollect
  rw [runBlocks, if_pos ((readsKall_eq_kall s).trans h.kall)]
  exact hcollect

/-- Settles O54: loading leaves the core with the expanded key, and it then answers every block with its ciphertext. -/
theorem coreComputesEcb : Obligations.CoreComputesEcb := by
  intro key P filler s hkey hrst hin
  by_cases hP : P = []
  · rw [hP, encryptMessage_nil hkey, ecbf_nil]
  · rw [encryptMessage_of_ne_nil hkey hP]
    exact (drive_ldkeyCommands _ hrst hin).runBlocks_eq P filler

/-! ## Several cores (R167) -/

section
variable {n : Nat} {key P : List Byte} (schedule : List (Nat × Fin n)) (filler : Nat → Byte) (c : Option Nat) (sys : System n)

theorem encryptParallel_of_length_ne (h : key.length ≠ 16) : encryptParallel schedule key P filler c sys = (none, sys) := by
  rw [encryptParallel, if_pos h]

theorem encryptParallel_nil (h : key.length = 16) : encryptParallel schedule key [] filler c sys = (some [], sys) := by
  rw [encryptParallel, if_neg (not_not.mpr h), if_pos rfl]

/-- A message that is not empty and not cancelled, on cores that all show KALL. -/
theorem encryptParallel_of_kall (h : key.length = 16) (hP : P ≠ [])
    (hall : allReadKall (loadAll (Config.keySchedule (window key 0)) sys) = true) :
    (encryptParallel schedule key P filler none sys).1 =
      (runBlocksOn P filler schedule (loadAll (Config.keySchedule (window key 0)) sys)).1.bind fun blocks =>
        assembleBlocks blocks (List.range (blockCount P)) := by
  rw [encryptParallel, if_neg (not_not.mpr h), if_neg hP]
  simp only [hall, if_true]

end

theorem loadAll_getElem {n : Nat} (E : ExpandedKey) (sys : System n) (i : Fin n) :
    (loadAll E sys)[i] = drive (ldkeyCommands E) sys[i] :=
  Vector.getElem_map _ i.isLt

theorem allReadKall_eq_true {n : Nat} {sys : System n} : allReadKall sys = true ↔ ∀ i : Fin n, kall sys[i] = true := by
  simp only [allReadKall, decide_eq_true_eq, readsKall_eq_kall]

theorem runBlockOn_fst {n : Nat} (i : Fin n) (P : List Byte) (filler : Nat → Byte) (j : Nat) (sys : System n) :
    (runBlockOn i P filler j sys).1 = blockOf (newResponses sys[i] (drive [blockCommand P filler j] sys[i])) := rfl

theorem runBlockOn_snd_same {n : Nat} (i : Fin n) (P : List Byte) (filler : Nat → Byte) (j : Nat) (sys : System n) :
    (runBlockOn i P filler j sys).2[i] = drive [blockCommand P filler j] sys[i] :=
  Vector.getElem_set_self i.isLt

theorem runBlockOn_snd_of_ne {n : Nat} {i k : Fin n} (hk : k ≠ i) (P : List Byte) (filler : Nat → Byte) (j : Nat)
    (sys : System n) : (runBlockOn i P filler j sys).2[k] = sys[k] :=
  Vector.getElem_set_ne i.isLt k.isLt (Fin.val_ne_of_ne hk.symm)

theorem blockOf_blockResponse (P : List Byte) (E : ExpandedKey) (j : Nat) :
    blockOf [blockResponse P E j] = some (cipherBlock P E j) :=
  congrArg some (bytes_word _)

/-- A loaded core of a system answers its block, and every loaded core stays loaded. -/
theorem runBlockOn_of_readyWith {n : Nat} {E : ExpandedKey} {P : List Byte} (filler : Nat → Byte) (i : Fin n) {j : Nat}
    (hj : j < blockCount P) {sys : System n} (h : ∀ k : Fin n, ReadyWith E sys[k]) :
    (runBlockOn i P filler j sys).1 = some (cipherBlock P E j) ∧
      ∀ k : Fin n, ReadyWith E (runBlockOn i P filler j sys).2[k] := by
  obtain ⟨hready, hresp⟩ := (h i).drive_blocks filler (js := [j]) (by simpa using hj)
  refine ⟨?_, fun k => ?_⟩
  · rw [runBlockOn_fst]
    exact (congrArg blockOf (newResponses_of_append hresp)).trans (blockOf_blockResponse P E j)
  · by_cases hk : k = i
    · rw [hk, runBlockOn_snd_same]
      exact hready
    · rw [runBlockOn_snd_of_ne hk]
      exact h k

/-- Loaded cores give each block of the schedule with its index, in the order they were issued. -/
theorem runBlocksOn_of_readyWith {n : Nat} {E : ExpandedKey} {P : List Byte} (filler : Nat → Byte)
    {schedule : List (Nat × Fin n)} (hlt : ∀ e ∈ schedule, e.1 < blockCount P) {sys : System n}
    (h : ∀ i : Fin n, ReadyWith E sys[i]) :
    (runBlocksOn P filler schedule sys).1 = some ((schedule.map Prod.fst).map fun j => (j, cipherBlock P E j)) := by
  induction schedule generalizing sys with
  | nil => rfl
  | cons e rest ih =>
    obtain ⟨j, i⟩ := e
    obtain ⟨hj, hlt⟩ := List.forall_mem_cons.mp hlt
    obtain ⟨hblock, hready⟩ := runBlockOn_of_readyWith filler i hj h
    simp [runBlocksOn, hblock, ih hlt hready]

/-- The blocks land at their offsets, in whatever order they were run. -/
theorem assembleBlocks_of_lookup {blocks : List (Nat × Block)} {f : Nat → Block} {js : List Nat}
    (h : ∀ j ∈ js, blocks.lookup j = some (f j)) :
    assembleBlocks blocks js = some (js.flatMap fun j => (f j).toList) := by
  induction js with
  | nil => rfl
  | cons j js ih =>
    obtain ⟨hj, hjs⟩ := List.forall_mem_cons.mp h
    simp [assembleBlocks, hj, ih hjs]

/-- Settles O57: every loaded core gives the same ciphertext block, and each index of the message has been issued. -/
theorem parallelBlocksComputeEcb : Obligations.ParallelBlocksComputeEcb := by
  intro n schedule key P filler sys hkey hready hperm
  by_cases hP : P = []
  · rw [hP, encryptParallel_nil _ _ _ _ hkey, ecbf_nil]
  have hloaded : ∀ i : Fin n, ReadyWith (Config.keySchedule (window key 0))
      (loadAll (Config.keySchedule (window key 0)) sys)[i] := fun i => by
    rw [loadAll_getElem]
    exact drive_ldkeyCommands _ (hready i).1 (hready i).2
  have hlt : ∀ e ∈ schedule, e.1 < blockCount P := fun e he =>
    List.mem_range.mp (hperm.mem_iff.mp (List.mem_map_of_mem he))
  rw [encryptParallel_of_kall _ _ _ hkey hP (allReadKall_eq_true.mpr fun i => (hloaded i).kall),
    runBlocksOn_of_readyWith filler hlt hloaded]
  exact assembleBlocks_of_lookup fun j hj => List.lookup_graph _ (hperm.mem_iff.mpr hj)

/-! ## The whole ciphertext or none (R166, R169) -/

theorem collect_eq_none {n : Nat} {rs : List Response} (h : rs.length < n ∨ ∃ r ∈ rs, r.rsp ≠ .ok) : collect n rs = none := by
  refine Option.eq_none_iff_forall_ne_some.mpr fun bs hbs => ?_
  obtain ⟨hlen, -, hok⟩ := collect_eq_some hbs
  rcases h with h | ⟨r, hr, hne⟩
  · exact absurd hlen h.ne
  · exact hne (hok r hr)

section
variable {key P C : List Byte} {filler : Nat → Byte} {c : Option Nat} {s : State}

theorem runBlocks_of_not_kall (h : kall s = false) (P : List Byte) (filler : Nat → Byte) (c : Option Nat) :
    runBlocks P filler c s = (none, s) := by
  simp [runBlocks, readsKall_eq_kall, h]

/-- Blocks that give a ciphertext were not cancelled, and the host collected it from their responses. -/
theorem runBlocks_eq_some (h : (runBlocks P filler c s).1 = some C) :
    c = none ∧ collect (blockCount P) (newResponses s (drive (blockCommands P filler) s)) = some C := by
  unfold runBlocks at h
  split at h
  · cases c with
    | none => exact ⟨rfl, h⟩
    | some m => cases h
  · cases h

/-- A ciphertext is that of the empty message, or the blocks gave it. -/
theorem encryptMessage_eq_some (h : (encryptMessage key P filler c s).1 = some C) :
    P = [] ∧ C = [] ∨ ∃ t, (runBlocks P filler c t).1 = some C := by
  by_cases hkey : key.length = 16
  · by_cases hP : P = []
    · rw [hP, encryptMessage_nil hkey] at h
      exact .inl ⟨hP, (Option.some.inj h).symm⟩
    · rw [encryptMessage_of_ne_nil hkey hP] at h
      exact .inr ⟨_, h⟩
  · rw [encryptMessage_of_length_ne hkey] at h
    cases h

theorem encryptMessage_cancelled (hP : P ≠ []) (m : Nat) : (encryptMessage key P filler (some m) s).1 = none := by
  refine Option.eq_none_iff_forall_ne_some.mpr fun C h => ?_
  rcases encryptMessage_eq_some h with ⟨hnil, -⟩ | ⟨t, ht⟩
  · exact hP hnil
  · cases (runBlocks_eq_some ht).1

theorem length_of_encryptMessage (h : (encryptMessage key P filler c s).1 = some C) : C.length = paddedLength P.length := by
  rcases encryptMessage_eq_some h with ⟨rfl, rfl⟩ | ⟨t, ht⟩
  · rfl
  · obtain ⟨-, hcollect⟩ := runBlocks_eq_some ht
    obtain ⟨-, hlen, -⟩ := collect_eq_some hcollect
    rw [hlen, blockCount_paddedLength]

end

section
variable {n : Nat} {schedule : List (Nat × Fin n)} {key P C : List Byte} {filler : Nat → Byte} {c : Option Nat} {sys : System n}

/-- A ciphertext is that of the empty message, or every core showed KALL, the host did not cancel, and each block of the schedule
was given and found its place. -/
theorem encryptParallel_eq_some (h : (encryptParallel schedule key P filler c sys).1 = some C) :
    P = [] ∧ C = [] ∨
    c = none ∧ allReadKall (loadAll (Config.keySchedule (window key 0)) sys) = true ∧
      ∃ blocks, (runBlocksOn P filler schedule (loadAll (Config.keySchedule (window key 0)) sys)).1 = some blocks ∧
        assembleBlocks blocks (List.range (blockCount P)) = some C := by
  unfold encryptParallel at h
  split at h
  · cases h
  · split at h
    · next hP => exact .inl ⟨hP, (Option.some.inj h).symm⟩
    · dsimp only at h
      split at h
      · next hall =>
        cases c with
        | none => exact .inr ⟨rfl, hall, Option.bind_eq_some_iff.mp h⟩
        | some m => cases h
      · cases h

theorem length_of_encryptParallel (h : (encryptParallel schedule key P filler c sys).1 = some C) :
    C.length = paddedLength P.length := by
  rcases encryptParallel_eq_some h with ⟨rfl, rfl⟩ | ⟨-, -, blocks, -, hC⟩
  · rfl
  · rw [assembleBlocks_length hC, List.length_range, blockCount_paddedLength]

theorem encryptParallel_eq_none (hP : P ≠ [])
    (h : c ≠ none ∨ allReadKall (loadAll (Config.keySchedule (window key 0)) sys) = false ∨
      (runBlocksOn P filler schedule (loadAll (Config.keySchedule (window key 0)) sys)).1 = none) :
    (encryptParallel schedule key P filler c sys).1 = none := by
  refine Option.eq_none_iff_forall_ne_some.mpr fun C hC => ?_
  rcases encryptParallel_eq_some hC with ⟨hnil, -⟩ | ⟨hc, hall, blocks, hblocks, -⟩
  · exact hP hnil
  · rcases h with h | h | h
    · exact h hc
    · rw [h] at hall; cases hall
    · rw [h] at hblocks; cases hblocks

/-- A failed block fails the schedule that begins with it. -/
theorem runBlocksOn_cons_eq_none {i : Fin n} {j : Nat} (rest : List (Nat × Fin n))
    (h : newResponses sys[i] (drive [blockCommand P filler j] sys[i]) = [] ∨
      ∃ r ∈ newResponses sys[i] (drive [blockCommand P filler j] sys[i]), r.rsp ≠ .ok) :
    (runBlocksOn P filler ((j, i) :: rest) sys).1 = none := by
  have hblock : (runBlockOn i P filler j sys).1 = none := (runBlockOn_fst i P filler j sys).trans (blockOf_eq_none h)
  simp [runBlocksOn, hblock]

/-- A failure behind other blocks fails the whole schedule. -/
theorem runBlocksOn_append_eq_none {pre rest : List (Nat × Fin n)}
    (h : (runBlocksOn P filler rest (runBlocksOn P filler pre sys).2).1 = none) :
    (runBlocksOn P filler (pre ++ rest) sys).1 = none := by
  simp [runBlocksOn_append, h]

theorem allReadKall_loadAll_eq_false {E : ExpandedKey} {i : Fin n} (h : kall (drive (ldkeyCommands E) sys[i]) = false) :
    allReadKall (loadAll E sys) = false := by
  rw [← Bool.not_eq_true, allReadKall_eq_true]
  intro hall
  have hi := hall i
  rw [loadAll_getElem, h] at hi
  cases hi

end

/-- Settles O55: a ciphertext that is given shows that no check failed, nothing was cancelled and every block was answered. -/
theorem noPartialCiphertext : Obligations.NoPartialCiphertext := by
  refine ⟨fun key P filler c s h => encryptMessage_of_length_ne h P filler c s,
    fun key P filler m s hP => encryptMessage_cancelled hP m,
    fun P filler c s h => runBlocks_of_not_kall h P filler c,
    fun P filler c s h => Option.eq_none_iff_forall_ne_some.mpr fun C hC => ?_,
    fun key P C filler c s => length_of_encryptMessage,
    fun n schedule key P filler c sys => ⟨encryptParallel_of_length_ne schedule filler c sys,
      fun hP hc => encryptParallel_eq_none hP (.inl hc),
      fun hP i hi => encryptParallel_eq_none hP (.inr (.inl (allReadKall_loadAll_eq_false hi))),
      fun C => length_of_encryptParallel⟩,
    fun n i j rest P filler sys => runBlocksOn_cons_eq_none rest,
    fun n i j pre rest key P filler c sys after hP hafter h => ?_,
    fun key filler c hkey => ⟨encryptMessage_nil hkey filler c,
      fun n schedule sys => encryptParallel_nil schedule filler c sys hkey⟩⟩
  · have hnone := collect_eq_none h
    rw [(runBlocks_eq_some hC).2] at hnone
    cases hnone
  · subst hafter
    exact encryptParallel_eq_none hP (.inr (.inr (runBlocksOn_append_eq_none (runBlocksOn_cons_eq_none rest h))))

end Sys2Proof.Machine

namespace Sys2Proof.Machine

/-! ## Idle cores (60_exceptions.md R194) and trace tags (R195) -/

/-- Settles O7: with nothing to take a ready core's step is idle, and READY is the complement of `rst`. -/
theorem idleCoreKeepsItsState : Obligations.IdleCoreKeepsItsState :=
  fun s hr hi => ⟨step_idle hr hi, by rw [ready, hr]; rfl⟩

theorem traceTag_round (r : BitVec 4) (src : TraceSource) (ph : Phase) : (traceTag r src ph).extractLsb' 4 4 = r := by
  unfold traceTag
  simp (disch := omega) only [BitVec.extractLsb'_append_eq_of_le]
  exact BitVec.extractLsb'_eq_self

theorem traceTag_source (r : BitVec 4) (src : TraceSource) (ph : Phase) :
    (traceTag r src ph).extractLsb' 2 2 = sourceCode src := by
  unfold traceTag
  simp (disch := omega) only [BitVec.extractLsb'_append_eq_of_add_le, BitVec.extractLsb'_append_eq_of_le]
  exact BitVec.extractLsb'_eq_self

theorem traceTag_phase (r : BitVec 4) (src : TraceSource) (ph : Phase) :
    (traceTag r src ph).extractLsb' 0 2 = phaseCode ph := by
  unfold traceTag
  simp (disch := omega) only [BitVec.extractLsb'_append_eq_of_add_le]
  exact BitVec.extractLsb'_eq_self

/-- Settles O34, one lemma for each field; the codes of the fields are those that R195 lists. -/
theorem traceTagHasItsFields : Obligations.TraceTagHasItsFields := by
  unfold Obligations.TraceTagHasItsFields
  refine ⟨fun r src ph => ⟨traceTag_round r src ph, ?_, ?_⟩, by decide, by decide⟩
  · rw [traceTag_source]
    cases src <;> rfl
  · rw [traceTag_phase]
    cases ph <;> rfl

/-! ## Errors (60_exceptions.md R182, R184 to R186) -/

/-- The code of a word does not depend on its operand. -/
theorem wordEffect_code_with_din (w : CmdWord) (d : BusWord) (s : State) :
    (wordEffect w { s with din := d }).code = responseCode w s := wordEffect_code w { s with din := d }

/-- A command that fails has its response and nothing else for effect. -/
theorem effect_eq_respond {i : Instr} {s : State} (h : (effect i s).code ≠ .ok) :
    effect i s = .respond (effect i s).code := by
  rcases effect_cases i s with ⟨r, he, -⟩ | ⟨y, es, -, he, -⟩ | ⟨b, j, -, -, he⟩ | ⟨-, he⟩ | ⟨n, p, E, -, he⟩ <;>
    rw [he] at h ⊢
  · rfl
  all_goals exact absurd rfl h

theorem wordEffect_eq_respond {w : CmdWord} {s : State} (h : responseCode w s ≠ .ok) :
    wordEffect w s = .respond (responseCode w s) := by
  rw [← wordEffect_code] at h ⊢
  rcases hd : decode w with e | i
  · rw [wordEffect_of_error hd]
    rfl
  · rw [wordEffect_of_ok hd] at h ⊢
    exact effect_eq_respond h

/-- A word whose code is an error takes that error, with its operand on the `din` port, and does nothing else. -/
theorem issue_eq_takeError {w : CmdWord} {s : State} (h : responseCode w s ≠ .ok) (d : BusWord) :
    issue w d s = .next (takeError (responseCode w s) { s with din := d }) := by
  rw [issue_eq_effect, wordEffect_eq_respond (s := { s with din := d }) h, Effect.apply_respond]
  rfl

/-- Settles O11: a word's one response is that of its effect, whose code is the first that applies. -/
theorem responseCodeIsTheFirstThatApplies : Obligations.ResponseCodeIsTheFirstThatApplies := by
  refine ⟨fun w d s => ?_, by decide, by decide⟩
  rw [← wordEffect_code_with_din w d s]
  exact ⟨_, _, issue_eq_effect w d s, Effect.apply_lastRsp _ _, Effect.apply_responses _ _⟩

/-- Settles O12: a word whose code is an error takes that error, which writes the record alone. -/
theorem errorWritesOnlyItsRecord : Obligations.ErrorWritesOnlyItsRecord :=
  fun _ d _ h => issue_eq_takeError h d

/-- Settles O13: LASTRSP takes the code of the word's effect, and latching OK changes no ERR. -/
theorem successClearsLastrspOnly : Obligations.SuccessClearsLastrspOnly := by
  intro w d s h
  rw [← wordEffect_code_with_din w d s] at h
  refine ⟨_, issue_eq_effect w d s, h, ?_⟩
  rw [Effect.apply_err, h, latchError_ok]

/-- A command reads STATE, RK and din, and nothing else of the state. -/
theorem effect_congr (i : Instr) {s t : State} (hst : s.stateReg = t.stateReg) (hrk : s.rk = t.rk) (hdin : s.din = t.din) :
    effect i s = effect i t := by
  have hread (u : State) :
      effect i u = effect i { State.reset with stateReg := u.stateReg, rk := u.rk, din := u.din } := by
    cases i <;> rfl
  rw [hread s, hread t, hst, hrk, hdin]

theorem wordEffect_congr (w : CmdWord) {s t : State} (hst : s.stateReg = t.stateReg) (hrk : s.rk = t.rk)
    (hdin : s.din = t.din) : wordEffect w s = wordEffect w t := by
  rcases hd : decode w with e | i
  · rw [wordEffect_of_error hd, wordEffect_of_error hd]
  · rw [wordEffect_of_ok hd, wordEffect_of_ok hd, effect_congr i hst hrk hdin]

/-- Settles O15: taking an error changes nothing that a word reads, so the next word has the effect it has without it. -/
theorem errorsDoNotBlockLaterCommands : Obligations.ErrorsDoNotBlockLaterCommands := by
  intro w d s h
  refine ⟨_, issue_eq_takeError h d, fun w' d' => ?_,
    fun d' => ⟨_, issue_eq_effect w d' _, wordEffect_code_with_din w d' _⟩⟩
  have hsame : wordEffect w' { takeError (responseCode w s) { s with din := d } with din := d' } =
      wordEffect w' { s with din := d' } := wordEffect_congr w' rfl rfl rfl
  refine ⟨_, _, issue_eq_effect w' d' _, issue_eq_effect w' d' s, ?_⟩
  rw [hsame]
  exact ⟨wordEffect_code_with_din w' d' s, wordEffect_code_with_din w' d' s, rfl, rfl, rfl⟩

/-! ## The result word (60_exceptions.md R183) -/

theorem returnsState_encode (i : Instr) :
    returnsState (encode i) = (!(opcode i == 0x0 || opcode i == 0x3) && !isReserved i) := by
  rw [returnsState, opField_encode, illegalWord_encode]

/-- NOP, LDRK and the reserved opcodes leave no result. -/
theorem effect_result_of_not_returnsState {i : Instr} (h : returnsState (encode i) = false) (s : State) :
    (effect i s).result = none := by
  rw [returnsState_encode] at h
  cases i with
  | nop | reservedB _ | reservedC _ | reservedD _ | reservedE _ | reservedF _ => rfl
  | ldrk k => rcases hk : keyIndex k with _ | j <;> simp only [effect, hk] <;> rfl
  | ldst | rdst | ark _ | sub | shr | mix | rnd _ | frnd _ | encb _ => cases h

/-- Every other command leaves a result when it does not fail. -/
theorem effect_result_of_returnsState {i : Instr} {s : State} (hok : (effect i s).code = .ok)
    (h : returnsState (encode i) = true) : ∃ x, (effect i s).result = some x := by
  rw [returnsState_encode] at h
  rcases effect_cases i s with ⟨r, he, hr⟩ | ⟨y, es, -, he, -⟩ | ⟨b, j, rfl, -, -⟩ | ⟨-, he⟩ | ⟨n, p, E, -, he⟩
  · rw [he] at hok
    rcases hr with rfl | hr
    · cases h
    · exact absurd hok hr
  · exact ⟨y, by rw [he]; rfl⟩
  · cases h
  · exact ⟨_, by rw [he]; rfl⟩
  · exact ⟨_, by rw [he]; rfl⟩

theorem wordEffect_result_of_returnsState {w : CmdWord} {s : State} (hok : responseCode w s = .ok)
    (h : returnsState w = true) : ∃ x, (wordEffect w s).result = some x := by
  rw [← wordEffect_code] at hok
  rcases decodesByShape w with ⟨i, hd, rfl⟩ | ⟨⟨e, hd⟩, -⟩
  · rw [wordEffect_of_ok hd] at hok ⊢
    exact effect_result_of_returnsState hok h
  · rw [wordEffect_of_error hd] at hok
    cases hok

theorem wordEffect_result_eq_none {w : CmdWord} {s : State} (h : responseCode w s ≠ .ok ∨ returnsState w = false) :
    (wordEffect w s).result = none := by
  rcases h with h | h
  · rw [wordEffect_eq_respond h]
    rfl
  · rcases decodesByShape w with ⟨i, hd, rfl⟩ | ⟨⟨e, hd⟩, -⟩
    · rw [wordEffect_of_ok hd]
      exact effect_result_of_not_returnsState h s
    · rw [wordEffect_of_error hd]
      rfl

namespace Effect

/-- A result is left in STATE, and the response carries it. -/
theorem apply_of_result {a : Effect} {x : Block} (h : a.result = some x) (s : State) :
    (a.apply s).stateReg = some x ∧ (a.apply s).responses = s.responses ++ [⟨a.code, word x⟩] := by
  simp [dout, h]

/-- Without a result the response carries the next free value. -/
theorem apply_of_no_result {a : Effect} (h : a.result = none) (s : State) :
    (a.apply s).responses = s.responses ++ [⟨a.code, Config.freeDout s.draws⟩] ∧ (a.apply s).draws = s.draws + 1 := by
  simp [dout, h]

end Effect

/-- Settles O14: the response carries the result of the word's effect, and there is one exactly when the word returns STATE
and does not fail. -/
theorem resultWordIsStateOrFree : Obligations.ResultWordIsStateOrFree := by
  intro w d s
  have hcode := wordEffect_code_with_din w d s
  refine ⟨_, issue_eq_effect w d s, fun hok hret => ?_, fun h => ?_⟩
  · obtain ⟨x, hx⟩ := wordEffect_result_of_returnsState (s := { s with din := d }) hok hret
    rw [← hok, ← hcode]
    exact ⟨x, Effect.apply_of_result hx _⟩
  · rw [← hcode]
    exact Effect.apply_of_no_result (wordEffect_result_eq_none (s := { s with din := d }) h) _

/-! ## Trace events (60_exceptions.md R196) -/

theorem stateOperand_ne_error_ok (s : State) : stateOperand s ≠ .error .ok := by
  rcases stateOperand_cases s with ⟨-, h⟩ | ⟨x, -, h⟩ <;> rw [h] <;> nofun

theorem keyOperand_ne_error_ok (k : BitVec 4) (s : State) : keyOperand k s ≠ .error .ok := by
  rcases keyOperand_cases k s with ⟨-, h⟩ | ⟨-, -, -, h⟩ | ⟨-, key, -, -, h⟩ <;> rw [h] <;> nofun

theorem blockOperand_ne_error_ok (n : BitVec 5) (s : State) : blockOperand n s ≠ .error .ok := by
  unfold blockOperand
  split <;> nofun

theorem allKeysOperand_ne_error_ok (s : State) : allKeysOperand s ≠ .error .ok := by
  unfold allKeysOperand
  split <;> nofun

/-- An operation behind a check makes its own number of events unless the check fails. -/
theorem Effect.length_events_after {α : Type} {check : Except Rsp α} {f : α → Effect} {n : Nat} (hcheck : check ≠ .error .ok)
    (hf : ∀ a, (f a).code = .ok → (f a).events.length = n) (hok : (Effect.after check f).code = .ok) :
    (Effect.after check f).events.length = n := by
  rcases check with e | a
  · exact absurd (congrArg Except.error hok) hcheck
  · exact hf a hok

theorem length_scheduleEvents (E : ExpandedKey) (qs : List SeqPos) (x : Block) : (scheduleEvents E qs x).length = qs.length := by
  induction qs generalizing x with
  | nil => rfl
  | cons q qs ih => simp only [scheduleEvents, List.length_cons, ih]

/-- A command that does not fail makes its number of events. -/
theorem effect_length_events {i : Instr} {s : State} (hok : (effect i s).code = .ok) :
    (effect i s).events.length = eventCount i := by
  cases i with
  | nop | ldst => rfl
  | ldrk k => rcases hk : keyIndex k with _ | j <;> simp only [effect, hk] <;> rfl
  | rdst | sub | shr | mix => exact Effect.length_events_after (stateOperand_ne_error_ok s) (fun _ _ => rfl) hok
  | ark k | rnd k | frnd k =>
    exact Effect.length_events_after (keyOperand_ne_error_ok k s)
      (fun _ => Effect.length_events_after (stateOperand_ne_error_ok s) fun _ _ => rfl) hok
  | encb n =>
    exact Effect.length_events_after (blockOperand_ne_error_ok n s)
      (fun p => Effect.length_events_after (allKeysOperand_ne_error_ok s) fun E _ => length_scheduleEvents E schedule p) hok
  | reservedB _ | reservedC _ | reservedD _ | reservedE _ | reservedF _ => rfl

/-- Settles O33: a command adds the events of its effect as the port shows them, and a failed one has none. -/
theorem traceEventsAreCounted : Obligations.TraceEventsAreCounted := by
  intro i s
  refine ⟨_, onTracePort (effect i s).events, exec_eq_effect i s, rfl, fun hport => ?_, fun herr => ?_, fun hport hok => ?_⟩
  · simp [onTracePort, hport]
  · rw [effect_eq_respond herr]
    exact onTracePort_nil
  · rw [onTracePort, if_pos hport]
    exact effect_length_events hok

/-! ## Independent cores (60_exceptions.md R197) -/

theorem systemStep_of_step {n : Nat} {i : Fin n} {sys : System n} {t : State} (h : step sys[i] = .next t) :
    systemStep i sys = .next (sys.set i t) := by
  rw [systemStep, h]

/-- Settles O58: a step of one core is that of its own state, which the other core's step leaves alone, and writes to two
places of the system commute. -/
theorem instancesAreIndependent : Obligations.InstancesAreIndependent := by
  intro n i j sys hij
  obtain ⟨t, ht⟩ := step_next sys[i]
  obtain ⟨u, hu⟩ := step_next sys[j]
  have hj : (sys.set i t)[j] = sys[j] := Vector.getElem_set_ne i.isLt j.isLt (Fin.val_ne_of_ne hij)
  have hi : (sys.set j u)[i] = sys[i] := Vector.getElem_set_ne j.isLt i.isLt (Fin.val_ne_of_ne hij.symm)
  refine ⟨_, _, _, systemStep_of_step ht, systemStep_of_step hu, hj, hi, systemStep_of_step (hj ▸ hu), ?_⟩
  rw [systemStep_of_step (hi ▸ ht), Vector.set_comm _ _ (Fin.val_ne_of_ne hij.symm)]

end Sys2Proof.Machine

namespace Sys2Proof.Machine

/-! ## Every accepted command responds (70_reset_and_hazards.md R230) -/

/-- A ready core accepts the oldest command of the queue, stays ready, and adds one response. -/
theorem step_command_responds {s : State} {w : CmdWord} {d : BusWord} {rest : List HostEvent} (hr : s.rst = false)
    (hi : s.inputs = .command w d :: rest) :
    ∃ t r, step s = .next t ∧ t.rst = false ∧ t.inputs = rest ∧ t.responses = s.responses ++ [r] :=
  ⟨_, _, (step_command hr hi).trans (issue_eq_effect w d _), hr, rfl, Effect.apply_responses _ _⟩

/-- Settles O8, by induction on the number of steps: each accepts the oldest command and adds its one response. -/
theorem everyAcceptedCommandResponds : Obligations.EveryAcceptedCommandResponds := by
  intro cs n
  induction n generalizing cs with
  | zero => exact fun s _ hr hi => ⟨s, [], rfl, hr, hi, (List.append_nil _).symm, rfl⟩
  | succ n ih =>
    intro s hn hr hi
    cases cs with
    | nil => cases hn
    | cons c cs =>
      obtain ⟨t, r, hstep, htr, hti, htresp⟩ := step_command_responds hr hi
      obtain ⟨u, rs, hsteps, hur, hui, huresp, hlen⟩ := ih cs t (Nat.le_of_succ_le_succ hn) htr hti
      refine ⟨u, r :: rs, (steps_succ hstep n).trans hsteps, hur, hui, ?_, congrArg Nat.succ hlen⟩
      rw [huresp, htresp, List.append_assoc, List.singleton_append]

/-! ## Reset (70_reset_and_hazards.md R210, R211, R221) -/

/-- A change of `rst` at the head of the queue is taken in reset and out of it. -/
theorem takeEvent_reset_cons {e : HostEvent} (he : e = .assertReset ∨ e = .releaseReset) (rst : Bool) (rest : List HostEvent) :
    takeEvent rst (e :: rest) = some (e, rest) := by
  rcases he with rfl | rfl <;> cases rst <;> rfl

theorem step_assertReset {s : State} {rest : List HostEvent} (hi : s.inputs = .assertReset :: rest) :
    step s = .next (enterReset { s with inputs := rest }) := by
  simp only [step, hi, takeEvent_reset_cons (.inl rfl), runEvent]

theorem step_releaseReset {s : State} {rest : List HostEvent} (hi : s.inputs = .releaseReset :: rest) :
    step s = .next (leaveReset { s with inputs := rest }) := by
  simp only [step, hi, takeEvent_reset_cons (.inr rfl), runEvent]

/-- Taking a change of `rst` out of the queue keeps all other events, in their order. -/
theorem takeReset_filter {p : HostEvent → Bool} (ha : p .assertReset = false) (hl : p .releaseReset = false)
    {es : List HostEvent} {e : HostEvent} {rest : List HostEvent} (h : takeReset es = some (e, rest)) :
    rest.filter p = es.filter p := by
  induction es generalizing rest with
  | nil => cases h
  | cons a as ih =>
    cases a with
    | assertReset => cases h; simp [ha]
    | releaseReset => cases h; simp [hl]
    | command w d | abandoned w d =>
      obtain ⟨⟨e', rest'⟩, htake, heq⟩ := Option.map_eq_some_iff.mp h
      cases heq
      simp only [List.filter_cons, ih htake]

/-- During reset a step does nothing, or takes the first change of `rst` in the queue. -/
theorem step_inReset {s t : State} (hr : s.rst = true) (h : step s = .next t) :
    t = s ∨ ∃ e rest, takeReset s.inputs = some (e, rest) ∧
      (t = enterReset { s with inputs := rest } ∨ t = leaveReset { s with inputs := rest }) := by
  rcases step_cases h with ⟨-, rfl⟩ | ⟨w, d, rest, -, hr', -⟩ | ⟨w, d, rest, he, -⟩ | ⟨rest, he, rfl⟩ | ⟨rest, he, rfl⟩
  · exact .inl rfl
  · cases hr.symm.trans hr'
  · rw [hr, takeEvent_inReset] at he
    rcases takeReset_isReset he with h' | h' <;> cases h'
  · rw [hr] at he
    exact .inr ⟨_, rest, he, .inl rfl⟩
  · rw [hr] at he
    exact .inr ⟨_, rest, he, .inr rfl⟩

/-- Settles O37: a change of `rst` is the only event that a core in reset takes, so its commands wait in the queue. -/
theorem resetHoldsTheCore : Obligations.ResetHoldsTheCore := by
  refine ⟨fun s rest hi => ⟨_, step_assertReset hi, enterReset_registersReset _, rfl, rfl, rfl, rfl⟩,
    fun s t hr h => ?_, fun s rest hi => ⟨step_releaseReset hi, rfl⟩⟩
  have hready : ready s = false := by rw [ready, hr]; rfl
  rcases step_inReset hr h with rfl | ⟨e, rest, htake, rfl | rfl⟩
  · exact ⟨hready, rfl, rfl, id, rfl⟩
  · exact ⟨hready, rfl, rfl, fun _ => enterReset_registersReset _, takeReset_filter rfl rfl htake⟩
  · exact ⟨hready, rfl, rfl, id, takeReset_filter rfl rfl htake⟩

/-! ## A command abandoned by reset (70_reset_and_hazards.md R212) -/

/-- The full trace of a word is what issuing it appends to the trace. -/
theorem issueTrace_of_issue {w : CmdWord} {d : BusWord} {s u : State} {full : List TraceEvent} (h : issue w d s = .next u)
    (htrace : u.trace = s.trace ++ full) : issueTrace w d s = full := by
  simp only [issueTrace, h, htrace, List.drop_left]

/-- Settles O38: abandoning a command enters reset, and of the trace the command would append it keeps a first part. -/
theorem abandonedCommandLeavesOnlyReset : Obligations.AbandonedCommandLeavesOnlyReset := by
  intro s w d rest hr hi
  have hissue := issue_eq_effect w d s
  have hfull := issueTrace_of_issue (issue_inputs w d s rest hissue) (Effect.apply_trace _ _)
  refine ⟨_, _, _, Config.freeEmitted s.draws, step_event hr hi, hissue, enterReset_registersReset _, rfl, rfl, rfl,
    Effect.apply_trace _ _, ?_⟩
  rw [abandon, enterReset_trace, hfull]

end Sys2Proof.Machine
